-- ==== Sys2Proof/Word.lean ====
section
/-! DEFINITION. The widths of the machine: bytes, words, 12-bit addresses, register numbers (00_scope.md R9, R12). -/

namespace Sys2Proof

/-- One memory byte, one V register, one timer (00_scope.md R9). -/
abbrev Byte := BitVec 8

/-- A 16-bit value: an instruction word, `I`, `PC`, a stack slot, a key latch (00_scope.md R9). -/
abbrev Word := BitVec 16

/-- The 12-bit address field `nnn` of an instruction word (30_encoding.md R91). -/
abbrev Addr := BitVec 12

/-- The number of a V register, a 4-bit field (10_state.md R22). -/
abbrev Reg := Fin 16

/-- `VF`, the register that is also the flag register (10_state.md R23). -/
abbrev VF : Reg := 15

end Sys2Proof
end

