-- ==== Sys2Proof/Decode.lean ====
section
/-! DEFINITION. The decoder (30_encoding.md R94), the encoder (R91, R93), the opcode map as a table (R93), and the
host's reading of one opcode-table word. -/

namespace Sys2Proof

/-- What the decoder answers for a word: one of the 34 instructions, or `Unknown` (30_encoding.md R94). -/
inductive Decoded where
  /-- The word is this instruction. -/
  | known (i : Instr)
  /-- The word is an unknown opcode. -/
  | unknown (w : Word)
  deriving DecidableEq, Repr

/-- `n0 = w[15:12]`, the opcode family (30_encoding.md R91). -/
def fieldN0 (w : Word) : Nat := (w.extractLsb' 12 4).toNat

/-- `x = w[11:8]` (30_encoding.md R91). -/
def fieldX (w : Word) : Reg := ⟨(w.extractLsb' 8 4).toNat, (w.extractLsb' 8 4).isLt⟩

/-- `y = w[7:4]` (30_encoding.md R91). -/
def fieldY (w : Word) : Reg := ⟨(w.extractLsb' 4 4).toNat, (w.extractLsb' 4 4).isLt⟩

/-- `n = w[3:0]`, a count or a selector (30_encoding.md R91). -/
def fieldN (w : Word) : Nat := (w.extractLsb' 0 4).toNat

/-- `kk = w[7:0]` (30_encoding.md R91). -/
def fieldKk (w : Word) : Byte := w.extractLsb' 0 8

/-- `nnn = w[11:0]` (30_encoding.md R91). -/
def fieldNnn (w : Word) : Addr := w.extractLsb' 0 12

/-- Family 0: only the exact words `00E0` and `00EE` (30_encoding.md R94, R98). -/
def decodeFamily0 (w : Word) : Decoded :=
  if w = 0x00E0 then .known .cls
  else if w = 0x00EE then .known .ret
  else .unknown w

/-- Family 8: the low nibble selects the operation (30_encoding.md R94). -/
def decodeFamily8 (w : Word) : Decoded :=
  match fieldN w with
  | 0x0 => .known (.ldReg (fieldX w) (fieldY w))
  | 0x1 => .known (.orReg (fieldX w) (fieldY w))
  | 0x2 => .known (.andReg (fieldX w) (fieldY w))
  | 0x3 => .known (.xorReg (fieldX w) (fieldY w))
  | 0x4 => .known (.addReg (fieldX w) (fieldY w))
  | 0x5 => .known (.subReg (fieldX w) (fieldY w))
  | 0x6 => .known (.shr (fieldX w) (fieldY w))
  | 0x7 => .known (.subn (fieldX w) (fieldY w))
  | 0xE => .known (.shl (fieldX w) (fieldY w))
  | _ => .unknown w

/-- Family E: the low byte selects the operation (30_encoding.md R94). -/
def decodeFamilyE (w : Word) : Decoded :=
  if fieldKk w = 0x9E then .known (.skp (fieldX w))
  else if fieldKk w = 0xA1 then .known (.sknp (fieldX w))
  else .unknown w

/-- Family F: the low byte selects the operation (30_encoding.md R94). -/
def decodeFamilyF (w : Word) : Decoded :=
  if fieldKk w = 0x07 then .known (.ldVxDt (fieldX w))
  else if fieldKk w = 0x0A then .known (.ldVxK (fieldX w))
  else if fieldKk w = 0x15 then .known (.ldDtVx (fieldX w))
  else if fieldKk w = 0x18 then .known (.ldStVx (fieldX w))
  else if fieldKk w = 0x1E then .known (.addI (fieldX w))
  else if fieldKk w = 0x29 then .known (.ldF (fieldX w))
  else if fieldKk w = 0x33 then .known (.ldB (fieldX w))
  else if fieldKk w = 0x55 then .known (.storeRegs (fieldX w))
  else if fieldKk w = 0x65 then .known (.loadRegs (fieldX w))
  else .unknown w

/-- The decoder of 30_encoding.md R94, total on every 16-bit word. -/
def decode (w : Word) : Decoded :=
  match fieldN0 w with
  | 0x0 => decodeFamily0 w
  | 0x1 => .known (.jp (fieldNnn w))
  | 0x2 => .known (.call (fieldNnn w))
  | 0x3 => .known (.seImm (fieldX w) (fieldKk w))
  | 0x4 => .known (.sneImm (fieldX w) (fieldKk w))
  | 0x5 => if fieldN w = 0 then .known (.seReg (fieldX w) (fieldY w)) else .unknown w
  | 0x6 => .known (.ldImm (fieldX w) (fieldKk w))
  | 0x7 => .known (.addImm (fieldX w) (fieldKk w))
  | 0x8 => decodeFamily8 w
  | 0x9 => if fieldN w = 0 then .known (.sneReg (fieldX w) (fieldY w)) else .unknown w
  | 0xA => .known (.ldI (fieldNnn w))
  | 0xB => .known (.jpV0 (fieldNnn w))
  | 0xC => .known (.rnd (fieldX w) (fieldKk w))
  | 0xD => .known (.drw (fieldX w) (fieldY w) (fieldN w))
  | 0xE => decodeFamilyE w
  | 0xF => decodeFamilyF w
  | _ => .unknown w

/-- The word of two bytes, the byte at the lower address first (20_memory.md R65). -/
def wordOfBytes (hi lo : Byte) : Word := hi ++ lo

/-- The byte of a word stored at the lower address (20_memory.md R65). -/
def highByte (w : Word) : Byte := w.extractLsb' 8 8

/-- The byte of a word stored at the higher address (20_memory.md R65). -/
def lowByte (w : Word) : Byte := w.extractLsb' 0 8

/-- Why a byte sequence does not begin with an instruction. -/
inductive DecodeReject where
  /-- The first word is an unknown opcode (30_encoding.md R96). -/
  | unknownOpcode (w : Word)
  /-- There are fewer than two bytes; an instruction is always two (30_encoding.md R90). -/
  | truncated (bytes : List Byte)
  deriving DecidableEq, Repr

/-- The first instruction of a byte sequence and the bytes after it; every instruction is two bytes (30_encoding.md R90,
R100). -/
def decodeBytes : List Byte → Except DecodeReject (Instr × List Byte)
  | hi :: lo :: rest =>
    match decode (wordOfBytes hi lo) with
    | .known i => .ok (i, rest)
    | .unknown w => .error (.unknownOpcode w)
  | bytes => .error (.truncated bytes)

/-- A register number as the four bits of its field. -/
def regBits (r : Reg) : BitVec 4 := BitVec.ofNat 4 r.val

/-- A word of the format `n0 x kk` (30_encoding.md R91). -/
def encodeXkk (n0 : BitVec 4) (x : Reg) (kk : Byte) : Word := n0 ++ regBits x ++ kk

/-- A word of the format `n0 x y n` (30_encoding.md R91). -/
def encodeXyn (n0 : BitVec 4) (x y : Reg) (n : BitVec 4) : Word := n0 ++ regBits x ++ regBits y ++ n

/-- A word of the format `n0 nnn` (30_encoding.md R91). -/
def encodeNnn (n0 : BitVec 4) (nnn : Addr) : Word := n0 ++ nnn

/-- The word of a well-formed instruction, from the patterns of 30_encoding.md R93. -/
def encode : Instr → Word
  | .cls => 0x00E0
  | .ret => 0x00EE
  | .jp nnn => encodeNnn 0x1 nnn
  | .call nnn => encodeNnn 0x2 nnn
  | .seImm x kk => encodeXkk 0x3 x kk
  | .sneImm x kk => encodeXkk 0x4 x kk
  | .seReg x y => encodeXyn 0x5 x y 0x0
  | .ldImm x kk => encodeXkk 0x6 x kk
  | .addImm x kk => encodeXkk 0x7 x kk
  | .ldReg x y => encodeXyn 0x8 x y 0x0
  | .orReg x y => encodeXyn 0x8 x y 0x1
  | .andReg x y => encodeXyn 0x8 x y 0x2
  | .xorReg x y => encodeXyn 0x8 x y 0x3
  | .addReg x y => encodeXyn 0x8 x y 0x4
  | .subReg x y => encodeXyn 0x8 x y 0x5
  | .shr x y => encodeXyn 0x8 x y 0x6
  | .subn x y => encodeXyn 0x8 x y 0x7
  | .shl x y => encodeXyn 0x8 x y 0xE
  | .sneReg x y => encodeXyn 0x9 x y 0x0
  | .ldI nnn => encodeNnn 0xA nnn
  | .jpV0 nnn => encodeNnn 0xB nnn
  | .rnd x kk => encodeXkk 0xC x kk
  | .drw x y n => encodeXyn 0xD x y (BitVec.ofNat 4 n)
  | .skp x => encodeXkk 0xE x 0x9E
  | .sknp x => encodeXkk 0xE x 0xA1
  | .ldVxDt x => encodeXkk 0xF x 0x07
  | .ldVxK x => encodeXkk 0xF x 0x0A
  | .ldDtVx x => encodeXkk 0xF x 0x15
  | .ldStVx x => encodeXkk 0xF x 0x18
  | .addI x => encodeXkk 0xF x 0x1E
  | .ldF x => encodeXkk 0xF x 0x29
  | .ldB x => encodeXkk 0xF x 0x33
  | .storeRegs x => encodeXkk 0xF x 0x55
  | .loadRegs x => encodeXkk 0xF x 0x65

/-- One row of the opcode map of 30_encoding.md R93: a word `w` is the instruction when `w & mask = value`. -/
structure OpcodeRow where
  /-- The row's `match` column. -/
  value : Word
  /-- The row's `mask` column. -/
  mask : Word
  /-- The instruction the row stands for, its operands read from the word's fields. -/
  instr : Word → Instr

/-- Rows 1 to 11 of 30_encoding.md R93. -/
def opcodeRowsTo11 : List OpcodeRow :=
  [⟨0x00E0, 0xFFFF, fun _ => .cls⟩,
   ⟨0x00EE, 0xFFFF, fun _ => .ret⟩,
   ⟨0x1000, 0xF000, fun w => .jp (fieldNnn w)⟩,
   ⟨0x2000, 0xF000, fun w => .call (fieldNnn w)⟩,
   ⟨0x3000, 0xF000, fun w => .seImm (fieldX w) (fieldKk w)⟩,
   ⟨0x4000, 0xF000, fun w => .sneImm (fieldX w) (fieldKk w)⟩,
   ⟨0x5000, 0xF00F, fun w => .seReg (fieldX w) (fieldY w)⟩,
   ⟨0x6000, 0xF000, fun w => .ldImm (fieldX w) (fieldKk w)⟩,
   ⟨0x7000, 0xF000, fun w => .addImm (fieldX w) (fieldKk w)⟩,
   ⟨0x8000, 0xF00F, fun w => .ldReg (fieldX w) (fieldY w)⟩,
   ⟨0x8001, 0xF00F, fun w => .orReg (fieldX w) (fieldY w)⟩]

/-- Rows 12 to 23 of 30_encoding.md R93. -/
def opcodeRowsTo23 : List OpcodeRow :=
  [⟨0x8002, 0xF00F, fun w => .andReg (fieldX w) (fieldY w)⟩,
   ⟨0x8003, 0xF00F, fun w => .xorReg (fieldX w) (fieldY w)⟩,
   ⟨0x8004, 0xF00F, fun w => .addReg (fieldX w) (fieldY w)⟩,
   ⟨0x8005, 0xF00F, fun w => .subReg (fieldX w) (fieldY w)⟩,
   ⟨0x8006, 0xF00F, fun w => .shr (fieldX w) (fieldY w)⟩,
   ⟨0x8007, 0xF00F, fun w => .subn (fieldX w) (fieldY w)⟩,
   ⟨0x800E, 0xF00F, fun w => .shl (fieldX w) (fieldY w)⟩,
   ⟨0x9000, 0xF00F, fun w => .sneReg (fieldX w) (fieldY w)⟩,
   ⟨0xA000, 0xF000, fun w => .ldI (fieldNnn w)⟩,
   ⟨0xB000, 0xF000, fun w => .jpV0 (fieldNnn w)⟩,
   ⟨0xC000, 0xF000, fun w => .rnd (fieldX w) (fieldKk w)⟩,
   ⟨0xD000, 0xF000, fun w => .drw (fieldX w) (fieldY w) (fieldN w)⟩]

/-- Rows 24 to 34 of 30_encoding.md R93. -/
def opcodeRowsTo34 : List OpcodeRow :=
  [⟨0xE09E, 0xF0FF, fun w => .skp (fieldX w)⟩,
   ⟨0xE0A1, 0xF0FF, fun w => .sknp (fieldX w)⟩,
   ⟨0xF007, 0xF0FF, fun w => .ldVxDt (fieldX w)⟩,
   ⟨0xF00A, 0xF0FF, fun w => .ldVxK (fieldX w)⟩,
   ⟨0xF015, 0xF0FF, fun w => .ldDtVx (fieldX w)⟩,
   ⟨0xF018, 0xF0FF, fun w => .ldStVx (fieldX w)⟩,
   ⟨0xF01E, 0xF0FF, fun w => .addI (fieldX w)⟩,
   ⟨0xF029, 0xF0FF, fun w => .ldF (fieldX w)⟩,
   ⟨0xF033, 0xF0FF, fun w => .ldB (fieldX w)⟩,
   ⟨0xF055, 0xF0FF, fun w => .storeRegs (fieldX w)⟩,
   ⟨0xF065, 0xF0FF, fun w => .loadRegs (fieldX w)⟩]

/-- The opcode map, transcribed from 30_encoding.md R93 apart from the decoder of R94, so that each can be held against
the other. -/
def opcodeMap : List OpcodeRow := opcodeRowsTo11 ++ opcodeRowsTo23 ++ opcodeRowsTo34

/-- The two bytes of an opcode-table word, in the order they stand in memory: bits above `nbits` are 0. -/
def tableBytes (nbits w : Nat) : List Byte :=
  let word : Word := BitVec.ofNat 16 (w % 2 ^ nbits)
  [highByte word, lowByte word]

/-- The host's question: which instruction does the decoder read from the opcode-table word `w` of `nbits` bits? -/
def decodeTableWord (nbits w : Nat) : Option Instr :=
  match decodeBytes (tableBytes nbits w) with
  | .ok (i, _) => some i
  | .error _ => none

end Sys2Proof
end

