-- ==== Sys2Proof/Config.lean ====
section
/-! DEFINITION. What one implementation fixes (the parameters of 00_scope.md R9) and the one free value of the machine. -/

namespace Sys2Proof

/-- What an instruction's write to a protected region does (20_memory.md R64). -/
inductive WritePolicy where
  /-- The write raises `ProtectedWrite`. -/
  | fault
  /-- The byte is dropped, the step otherwise completes. -/
  | ignore
  /-- The byte is written. -/
  | write
  deriving DecidableEq, Repr

/-- What `Ex9E` and `ExA1` do with a key number of 16 or more (45_input_timers.md R220). -/
inductive KeyIndexPolicy where
  /-- Such a key is not pressed. -/
  | notPressed
  /-- The key number is taken modulo 16. -/
  | mod16
  /-- The instruction raises `KeyIndex`. -/
  | fault
  deriving DecidableEq, Repr

/-- The parameter `drawYMod`: 64 as the source writes it, 32 permitted (44_display.md R204; log 11). -/
inductive DrawYMod where
  /-- The origin row is `V[y] mod 64`. -/
  | mod64
  /-- The origin row is `V[y] mod 32`. -/
  | mod32
  deriving DecidableEq, Repr

/-- The parameters of 00_scope.md R9 that have a default and that an instruction's meaning depends on. -/
structure Params where
  /-- Governs instruction writes to `[0, 80)`. -/
  fontWritePolicy : WritePolicy
  /-- Governs instruction writes to `[80, 512)`. -/
  lowWritePolicy : WritePolicy
  /-- Governs key numbers of 16 or more. -/
  keyIndexPolicy : KeyIndexPolicy
  /-- The modulus of the sprite's origin row. -/
  drawYMod : DrawYMod
  deriving DecidableEq, Repr

namespace Config

/-- `MEM_SIZE` (00_scope.md R9). -/
@[simp] abbrev memSize : Nat := 4096

/-- `FONT_LEN`: the font occupies `[0, 80)` (00_scope.md R9). -/
@[simp] abbrev fontLen : Nat := 80

/-- `PROG_BASE`: the entry point and the first writable address of the source (00_scope.md R9). -/
@[simp] abbrev progBase : Nat := 512

/-- `PROG_MAX`: the longest image that loads (00_scope.md R9). -/
@[simp] abbrev progMax : Nat := 3584

/-- `DISP_W` and `drawXMod` (00_scope.md R9). -/
@[simp] abbrev dispW : Nat := 64

/-- `DISP_H` (00_scope.md R9). -/
@[simp] abbrev dispH : Nat := 32

/-- `NKEYS` (00_scope.md R9). -/
@[simp] abbrev numKeys : Nat := 16

/-- The random bytes of `Cxkk`, a FREE value: the n-th byte the host's `rand` port supplies (42_alu.md R161, 92 D19).
It has no body a proof could see, so every claim holds for every sequence of bytes. DESIGN CHOICE (log 3), safe. -/
opaque rand : Nat → Byte

end Config

end Sys2Proof
end

