-- ==== Sys2Proof/Machine/Memory.lean ====
section
/-! DEFINITION. Memory (20_memory.md): 4096 bytes in one canonical list, the font, and the reading and writing of one byte. -/

namespace Sys2Proof.Machine

/-- Memory as address and byte pairs: an address that is not listed reads as `unlisted` says (log 1). -/
abbrev Memory := List Host.Cell

/-- Glyphs 0 to 7 of the default font (10_state.md R31). PRESUMED by the spec (92 D16), log 10. -/
def glyphs0to7 : List (List Byte) :=
  [[0xF0, 0x90, 0x90, 0x90, 0xF0],
   [0x20, 0x60, 0x20, 0x20, 0x70],
   [0xF0, 0x10, 0xF0, 0x80, 0xF0],
   [0xF0, 0x10, 0xF0, 0x10, 0xF0],
   [0x90, 0x90, 0xF0, 0x10, 0x10],
   [0xF0, 0x80, 0xF0, 0x10, 0xF0],
   [0xF0, 0x80, 0xF0, 0x90, 0xF0],
   [0xF0, 0x10, 0x20, 0x40, 0x40]]

/-- Glyphs 8 to F of the default font (10_state.md R31). PRESUMED by the spec (92 D16), log 10. -/
def glyphs8toF : List (List Byte) :=
  [[0xF0, 0x90, 0xF0, 0x90, 0xF0],
   [0xF0, 0x90, 0xF0, 0x10, 0xF0],
   [0xF0, 0x90, 0xF0, 0x90, 0x90],
   [0xE0, 0x90, 0xE0, 0x90, 0xE0],
   [0xF0, 0x80, 0x80, 0x80, 0xF0],
   [0xE0, 0x90, 0x90, 0x90, 0xE0],
   [0xF0, 0x80, 0xF0, 0x80, 0xF0],
   [0xF0, 0x80, 0xF0, 0x80, 0x80]]

/-- The 80 bytes of the default font in address order: glyph d at `5d` to `5d + 4` (10_state.md R31). -/
def defaultFont : List Byte := (glyphs0to7 ++ glyphs8toF).flatten

/-- What an address that memory does not list reads as: the font below 80, else 0. DESIGN CHOICE for the bytes outside
the font, `initFill` of 00_scope.md R9 (log 1), unsafe. -/
def unlisted (a : Nat) : Byte := if a < Config.fontLen then defaultFont.getD a 0 else 0

/-- The byte at an address (20_memory.md R62), before any bounds check. -/
def Memory.read : Memory → Nat → Byte
  | [], a => unlisted a
  | (b, v) :: rest, a => if a = b then v else Memory.read rest a

/-- Memory with an entry for `a`, at its place in the rising order. -/
def Memory.insert (a : Nat) (v : Byte) : Memory → Memory
  | [] => [(a, v)]
  | (b, u) :: rest =>
    if a < b then (a, v) :: (b, u) :: rest
    else if a = b then (a, v) :: rest
    else (b, u) :: Memory.insert a v rest

/-- Memory with no entry for `a`. -/
def Memory.erase (a : Nat) (m : Memory) : Memory := m.filter (fun c => c.1 ≠ a)

/-- The write of one byte (20_memory.md R63), keeping the canonical form. An address outside the 4096 bytes has no byte:
the checks of `checkWrite` come first, so no instruction reaches that case. -/
def Memory.write (m : Memory) (a : Nat) (v : Byte) : Memory :=
  if a < Config.memSize then
    if v = unlisted a then m.erase a else m.insert a v
  else m

/-- The canonical form: addresses strictly rising and inside the 4096 bytes, no entry that says what an unlisted address
says. Equal memories are then equal lists. -/
abbrev Memory.wf (m : Memory) : Prop :=
  m.Pairwise (fun c d => c.1 < d.1) ∧ ∀ c ∈ m, c.1 < Config.memSize ∧ c.2 ≠ unlisted c.1

/-- The canonical memory that reads as `f` at every address (used at construction, 70_reset_and_hazards.md R270). -/
def Memory.ofContents (f : Nat → Byte) : Memory :=
  (List.range Config.memSize).filterMap (fun a => if f a = unlisted a then none else some (a, f a))

end Sys2Proof.Machine
end

