-- ==== Sys2Proof/Machine/Params.lean ====
section
/-! DEFINITION. The values the spec gives the parameters by default (00_scope.md R9). -/

namespace Sys2Proof.Machine

/-- `fontWritePolicy = fault`, `lowWritePolicy = fault`, `keyIndexPolicy = notPressed`, `drawYMod = 64`
(00_scope.md R9; 92 D8, D9, D13, D25; log 4). -/
def defaultParams : Params :=
  { fontWritePolicy := .fault, lowWritePolicy := .fault, keyIndexPolicy := .notPressed, drawYMod := .mod64 }

end Sys2Proof.Machine
end

