-- ==== Sys2Proof/Machine/State.lean ====
section
/-! DEFINITION. The state of the machine (10_state.md R20), its value at reset (R42), and the reasons a step can stop. -/

namespace Sys2Proof.Machine

/-- The error conditions of 60_exceptions.md R241. -/
inductive ErrorKind where
  /-- Code 1: a fetch or a data access at 4096 or more. -/
  | outOfBounds
  /-- Code 2: an unknown word, recoverable, logged in `DIAG`. -/
  | unknownOpcode
  /-- Code 3: the image is too long, no session starts. -/
  | loadError
  /-- Code 4: a write below 512 under a `fault` policy. -/
  | protectedWrite
  /-- Code 5: a key number of 16 or more under `keyIndexPolicy = fault`. -/
  | keyIndex
  deriving DecidableEq, Repr

/-- The fault record `(kind, pc, addr, raw)` (10_state.md R38). -/
structure FaultRecord where
  /-- The fault kind. -/
  kind : ErrorKind
  /-- The `PC` of the faulting step. -/
  pc : Word
  /-- The faulting address, a natural: it may be 65536 or more (20_memory.md R70). -/
  addr : Nat
  /-- The bytes of the instruction that lie inside memory. -/
  raw : List Byte
  deriving DecidableEq, Repr

/-- One diagnostic `(pc, w)` of an unknown opcode (10_state.md R39). -/
structure Diagnostic where
  /-- The address of the word. -/
  pc : Word
  /-- The raw word. -/
  word : Word
  deriving DecidableEq, Repr

/-- `DISP[0..2047]`: bit p is pixel p, p = row * 64 + column (10_state.md R36; log 9). -/
abbrev Display := BitVec 2048

/-- The machine's state: the fourteen fields of 10_state.md R20, and the model's own `draws` and `params`. -/
structure State where
  /-- `M`, 4096 bytes (R31). -/
  mem : Memory
  /-- `V[0..15]` (R22). -/
  v : Vector Byte 16
  /-- `I`, the index register (R30). -/
  i : Word
  /-- `PC` (R25). -/
  pc : Word
  /-- `SP`, the slot the next call writes (R28); its arithmetic is modulo 16 (R29). -/
  sp : Fin 16
  /-- `S[0..15]`, the return stack (R28). -/
  stack : Vector Word 16
  /-- `DT`, the delay timer (R32). -/
  dt : Byte
  /-- `ST`, the sound timer (R32). -/
  st : Byte
  /-- `KEY`, the input latch, bit k = key k pressed (R34). -/
  key : Word
  /-- `KEYP`, the latch before the last edit (R35). -/
  keyp : Word
  /-- `DISP`, the display surface (R36). -/
  disp : Display
  /-- `DRAW`, the draw flag (R37). -/
  draw : Bool
  /-- `HALT`, none while the block runs (R38). -/
  halt : Option FaultRecord
  /-- `DIAG`, the diagnostics in the order they were reported (R39). -/
  diag : List Diagnostic
  /-- The model's own: how many random bytes `Cxkk` has drawn (log 3). -/
  draws : Nat
  /-- The model's own: the parameters of 00_scope.md R9, which nothing changes (log 4). -/
  params : Params
  deriving DecidableEq, Repr

/-- Why the machine stops with no next state. No step does: a fatal error of a step is a next state with `HALT` set
(60_exceptions.md R242). -/
inductive Fault where
  /-- Raised by `construct` alone: the image is longer than 3584 bytes, so no session and no state exist
  (60_exceptions.md R247, 70_reset_and_hazards.md R272). Safe: the spec names this stop. -/
  | loadError
  deriving DecidableEq, Repr

/-- Why an instruction has no meaning in the model. No arm of `exec` answers so: every instruction has its meaning, and
"the block never refuses a word" (40_cycle.md R118). -/
inductive Refusal where
  /-- An instruction that has no meaning yet, named as spec/opcode_table.json names it; raised by no arm. Safe. -/
  | notModelled (mnemonic : String)
  deriving DecidableEq, Repr

/-- The state at the start of a session with an empty image (10_state.md R42): the font in place, `PC` 512, all else 0,
off or empty. `initFill` is 0 (log 1), `initStack` is 0 (log 2), the parameters are the defaults (log 4). -/
def State.reset : State :=
  { mem := [], v := Vector.replicate 16 0, i := 0, pc := 512, sp := 0, stack := Vector.replicate 16 0, dt := 0, st := 0,
    key := 0, keyp := 0, disp := 0, draw := false, halt := none, diag := [], draws := 0, params := defaultParams }

end Sys2Proof.Machine
end

