-- ==== Sys2Proof/Machine/Ops.lean ====
section
/-! DEFINITION. The named operations over registers, stack, memory, display and the fault record that the meanings share. -/

namespace Sys2Proof.Machine

/-- What an instruction and a step answer. -/
abbrev Answer := Host.Outcome State Fault Refusal

/-! ### Registers, index register, program counter (10_state.md R22, R25, R30) -/

/-- `V[x]`. -/
def State.reg (s : State) (x : Reg) : Byte := s.v[x.val]

/-- `V[x] <- b`. -/
def State.setReg (s : State) (x : Reg) (b : Byte) : State := { s with v := s.v.set x.val b }

/-- The V registers with the bytes written from register number `k` upward. -/
def writeRegsFrom (k : Nat) : List Byte → Vector Byte 16 → Vector Byte 16
  | [], v => v
  | b :: bs, v => writeRegsFrom (k + 1) bs (v.setIfInBounds k b)

/-- `V[0] <- b0`, `V[1] <- b1`, and so on. -/
def State.setRegs (s : State) (bytes : List Byte) : State := { s with v := writeRegsFrom 0 bytes s.v }

/-- The bytes of `V[0]` to `V[x]`. -/
def State.regsUpTo (s : State) (x : Reg) : List Byte := s.v.toList.take (x.val + 1)

/-- `I <- w`. -/
def State.setI (s : State) (w : Word) : State := { s with i := w }

/-- `PC <- w`. -/
def State.setPc (s : State) (w : Word) : State := { s with pc := w }

/-- `PC <- trunc_16(pc0 + 2)`, the default advance (40_cycle.md R114). -/
def State.advance (s : State) : State := s.setPc (s.pc + 2)

/-- The conditional skip: `pc0 + 4` when the condition holds, else `pc0 + 2` (40_cycle.md R114). -/
def State.skipIf (s : State) (c : Bool) : State := s.setPc (if c then s.pc + 4 else s.pc + 2)

/-! ### Return stack (10_state.md R28, R29) -/

/-- `S[j]`. -/
def State.slot (s : State) (j : Fin 16) : Word := s.stack[j.val]

/-- `S[SP] <- w; SP <- (SP + 1) mod 16`. -/
def State.push (s : State) (w : Word) : State := { s with stack := s.stack.set s.sp.val w, sp := s.sp + 1 }

/-- `SP <- (SP - 1) mod 16`; the slot read is not cleared. -/
def State.pop (s : State) : State := { s with sp := s.sp - 1 }

/-! ### Timers, display and draw flag (10_state.md R32, R36, R37) -/

/-- `DT <- b`. -/
def State.setDt (s : State) (b : Byte) : State := { s with dt := b }

/-- `ST <- b`. -/
def State.setSt (s : State) (b : Byte) : State := { s with st := b }

/-- `DISP <- d; DRAW <- 1`: every clear and every draw sets the draw flag (44_display.md R205). -/
def State.showDisplay (s : State) (d : Display) : State := { s with disp := d, draw := true }

/-- The state after one byte was taken from the `rand` port (42_alu.md R161; log 3). -/
def State.countDraw (s : State) : State := { s with draws := s.draws + 1 }

/-! ### Memory (20_memory.md R62 to R64, 43_index_memory.md checkWrite and doWrite) -/

/-- `M[a]`. -/
def State.byteAt (s : State) (a : Nat) : Byte := s.mem.read a

/-- `M[base], M[base + 1], ...`, `len` bytes. -/
def State.bytesAt (s : State) (base len : Nat) : List Byte := (List.range' base len).map s.byteAt

/-- An error raised by a check: its kind and the address (or key number) it records. -/
structure Raised where
  /-- The error's kind. -/
  kind : ErrorKind
  /-- The address the fault record will hold. -/
  addr : Nat
  deriving DecidableEq, Repr

/-- The check of a read: `OutOfBounds` from 4096 on (20_memory.md R62). -/
def checkRead (a : Nat) : Option Raised :=
  if Config.memSize ≤ a then some ⟨.outOfBounds, a⟩ else none

/-- The check of a write (43_index_memory.md `checkWrite`; 20_memory.md R63, R64). -/
def checkWrite (p : Params) (a : Nat) : Option Raised :=
  if Config.memSize ≤ a then some ⟨.outOfBounds, a⟩
  else if a < Config.fontLen ∧ p.fontWritePolicy = .fault then some ⟨.protectedWrite, a⟩
  else if Config.fontLen ≤ a ∧ a < Config.progBase ∧ p.lowWritePolicy = .fault then some ⟨.protectedWrite, a⟩
  else none

/-- The checks of `len` reads from `base` upward: the first error, lowest address first (60_exceptions.md R248). -/
def checkReads (base len : Nat) : Option Raised := (List.range' base len).findSome? checkRead

/-- The checks of `len` writes from `base` upward: the first error, lowest address first (60_exceptions.md R248). -/
def checkWrites (p : Params) (base len : Nat) : Option Raised := (List.range' base len).findSome? (checkWrite p)

/-- Is a write at `a` dropped, because its region's policy is `ignore`? (43_index_memory.md `doWrite`) -/
def writeIgnored (p : Params) (a : Nat) : Bool :=
  if a < Config.fontLen then p.fontWritePolicy = .ignore
  else if a < Config.progBase then p.lowWritePolicy = .ignore
  else false

/-- The write of one byte after every check passed (43_index_memory.md `doWrite`). -/
def State.doWrite (s : State) (a : Nat) (b : Byte) : State :=
  if writeIgnored s.params a then s else { s with mem := s.mem.write a b }

/-- The bytes written from `a` upward, in that order. -/
def State.doWrites (s : State) (a : Nat) : List Byte → State
  | [] => s
  | b :: bs => (s.doWrite a b).doWrites (a + 1) bs

/-! ### Errors (60_exceptions.md) -/

/-- The numeric code of an error (60_exceptions.md R241). -/
def ErrorKind.code : ErrorKind → Nat
  | .outOfBounds => 1
  | .unknownOpcode => 2
  | .loadError => 3
  | .protectedWrite => 4
  | .keyIndex => 5

/-- The bytes of the instruction at `PC` that lie inside memory: two, or fewer when the fetch itself faults
(10_state.md R38, 40_cycle.md R112; log 13). -/
def State.rawAtPc (s : State) : List Byte :=
  ((List.range' s.pc.toNat 2).filter (fun a => a < Config.memSize)).map s.byteAt

/-- The record a fault of this step leaves in `HALT` (60_exceptions.md R241). -/
def State.faultRecord (s : State) (e : Raised) : FaultRecord :=
  { kind := e.kind, pc := s.pc, addr := e.addr, raw := s.rawAtPc }

/-- `raise E(info)`: entry into the halted state. Nothing but `HALT` changes; the halt is precise
(60_exceptions.md R242, 00_scope.md R16). -/
def State.haltWith (s : State) (e : Raised) : State := { s with halt := some (s.faultRecord e) }

/-- The instruction's answer after its checks: the halted state of the first error, else the state `t` of its effect. -/
def afterCheck (check : Option Raised) (s t : State) : Answer :=
  match check with
  | some e => .next (s.haltWith e)
  | none => .next t

/-- `report UnknownOpcode(pc0, w)` and the advance by 2 (40_cycle.md R116). -/
def State.reportUnknown (s : State) (w : Word) : State :=
  State.advance { s with diag := s.diag ++ [⟨s.pc, w⟩] }

/-! ### Fetch (40_cycle.md R111, R112) -/

/-- `Fetch16(PC)`: the big-endian word at `PC`, or the out-of-bounds error of the first of the two addresses outside
memory. -/
def fetch (s : State) : Except Raised Word :=
  match checkReads s.pc.toNat 2 with
  | some e => .error e
  | none => .ok (wordOfBytes (s.byteAt s.pc.toNat) (s.byteAt (s.pc.toNat + 1)))

/-- Two bytes of a program placed at `PC`, as the loader places an image: no write policy applies
(70_reset_and_hazards.md R272). -/
def State.placeWordAtPc (s : State) (hi lo : Byte) : State :=
  { s with mem := (s.mem.write s.pc.toNat hi).write (s.pc.toNat + 1) lo }

end Sys2Proof.Machine
end

