-- ==== Sys2Proof/Machine/Flags.lean ====
section
/-! DEFINITION. The values `VF` takes as the flag register (10_state.md R23, 42_alu.md R162). -/

namespace Sys2Proof.Machine

/-- A flag as the byte `VF` holds. -/
def flagByte (c : Bool) : Byte := if c then 1 else 0

/-- The carry out of an addition: 1 exactly when the mathematical sum exceeds 255 (42_alu.md R156). -/
def carryFlag (a b : Byte) : Byte := flagByte (decide (255 < a.toNat + b.toNat))

/-- The not-borrow of `a - b`: 1 exactly when `a >= b` (42_alu.md R157, R159). -/
def notBorrowFlag (a b : Byte) : Byte := flagByte (decide (b.toNat ≤ a.toNat))

/-- The bit a right shift moves out, bit 0 (42_alu.md R158). -/
def shiftOutRight (b : Byte) : Byte := b &&& 1

/-- The bit a left shift moves out, bit 7 (42_alu.md R160). -/
def shiftOutLeft (b : Byte) : Byte := (b >>> 7) &&& 1

/-- The flag after OR, AND and XOR: always 0 (42_alu.md R153). -/
def clearedFlag : Byte := 0

/-- The result is written first and the flag last, so `VF` ends as the flag (42_alu.md R153 to R157, R159; 92 D3). -/
def State.setResultThenFlag (s : State) (x : Reg) (result flag : Byte) : State := (s.setReg x result).setReg VF flag

/-- The flag is written first and the result last, as the shifts do (42_alu.md R158, R160; 92 D3). -/
def State.setFlagThenResult (s : State) (x : Reg) (result flag : Byte) : State := (s.setReg VF flag).setReg x result

end Sys2Proof.Machine
end

