-- ==== Sys2Proof/Machine/Operands.lean ====
section
/-! DEFINITION. Operand forms: zero-extended immediates, effective addresses, glyph addresses, decimal digits, key numbers
and the sprite origin. -/

namespace Sys2Proof.Machine

/-- `zext_16(nnn)` (30_encoding.md R92). -/
def zextAddr (nnn : Addr) : Word := nnn.setWidth 16

/-- A byte zero-extended to 16 bits (30_encoding.md R92). -/
def zextByte (b : Byte) : Word := b.setWidth 16

/-- The base of a data address, `I` as a natural: offsets are added with no wrap (20_memory.md R70). -/
def State.base (s : State) : Nat := s.i.toNat

/-- `trunc_16(base + x + 1)`, what `Fx55` and `Fx65` leave in `I` (43_index_memory.md R184, R185). -/
def State.baseAfter (s : State) (x : Reg) : Word := BitVec.ofNat 16 (s.base + x.val + 1)

/-- `(V[x] mod 16) * 5`, the address of a font glyph (43_index_memory.md R182). -/
def glyphAddr (b : Byte) : Word := BitVec.ofNat 16 (b.toNat % 16 * 5)

/-- The hundreds, tens and ones digits of a byte (43_index_memory.md R183). -/
def decimalDigits (b : Byte) : List Byte :=
  [BitVec.ofNat 8 (b.toNat / 100), BitVec.ofNat 8 (b.toNat / 10 % 10), BitVec.ofNat 8 (b.toNat % 10)]

/-- `pressed(k)` (45_input_timers.md R220): the key test of `Ex9E` and `ExA1`, or the `KeyIndex` error. -/
def pressed (p : Params) (key : Word) (k : Byte) : Except Raised Bool :=
  if k.toNat < Config.numKeys then .ok (key.getLsbD k.toNat)
  else
    match p.keyIndexPolicy with
    | .notPressed => .ok false
    | .mod16 => .ok (key.getLsbD (k.toNat % 16))
    | .fault => .error ⟨.keyIndex, k.toNat⟩

/-- The key `Fx0A` takes: the lowest k with `KEYP[k] = 1` and `KEY[k] = 0` (45_input_timers.md R223). -/
def releasedKey (keyp key : Word) : Option Nat :=
  (List.range Config.numKeys).find? (fun k => keyp.getLsbD k && !key.getLsbD k)

/-- The origin column `V[x] mod 64` (44_display.md R202, R204). -/
def originX (b : Byte) : Nat := b.toNat % Config.dispW

/-- The number `drawYMod` stands for (44_display.md R204). -/
def yModulus : DrawYMod → Nat
  | .mod64 => 64
  | .mod32 => 32

/-- The origin row `V[y] mod drawYMod` (44_display.md R202, R204). -/
def originY (p : Params) (b : Byte) : Nat := b.toNat % yModulus p.drawYMod

end Sys2Proof.Machine
end

