-- ==== Sys2Proof/Machine/Alu.lean ====
section
/-! DEFINITION. Register loads and the arithmetic-logic unit (42_alu.md). Operands are read before any write (92 D2). -/

namespace Sys2Proof.Machine

/-- `6xkk` LD Vx, kk (42_alu.md R150). -/
def execLdImm (x : Reg) (kk : Byte) (s : State) : Answer := .next (s.setReg x kk).advance

/-- `7xkk` ADD Vx, kk (42_alu.md R151): 8-bit wraparound, no flag. -/
def execAddImm (x : Reg) (kk : Byte) (s : State) : Answer := .next (s.setReg x (s.reg x + kk)).advance

/-- `8xy0` LD Vx, Vy (42_alu.md R152). -/
def execLdReg (x y : Reg) (s : State) : Answer := .next (s.setReg x (s.reg y)).advance

/-- `8xy1` OR Vx, Vy (42_alu.md R153). -/
def execOrReg (x y : Reg) (s : State) : Answer :=
  .next (s.setResultThenFlag x (s.reg x ||| s.reg y) clearedFlag).advance

/-- `8xy2` AND Vx, Vy (42_alu.md R154). -/
def execAndReg (x y : Reg) (s : State) : Answer :=
  .next (s.setResultThenFlag x (s.reg x &&& s.reg y) clearedFlag).advance

/-- `8xy3` XOR Vx, Vy (42_alu.md R155). -/
def execXorReg (x y : Reg) (s : State) : Answer :=
  .next (s.setResultThenFlag x (s.reg x ^^^ s.reg y) clearedFlag).advance

/-- `8xy4` ADD Vx, Vy (42_alu.md R156). -/
def execAddReg (x y : Reg) (s : State) : Answer :=
  .next (s.setResultThenFlag x (s.reg x + s.reg y) (carryFlag (s.reg x) (s.reg y))).advance

/-- `8xy5` SUB Vx, Vy (42_alu.md R157). -/
def execSubReg (x y : Reg) (s : State) : Answer :=
  .next (s.setResultThenFlag x (s.reg x - s.reg y) (notBorrowFlag (s.reg x) (s.reg y))).advance

/-- `8xy6` SHR Vx, Vy (42_alu.md R158): the source is `Vy`. -/
def execShr (x y : Reg) (s : State) : Answer :=
  .next (s.setFlagThenResult x (s.reg y >>> 1) (shiftOutRight (s.reg y))).advance

/-- `8xy7` SUBN Vx, Vy (42_alu.md R159). -/
def execSubn (x y : Reg) (s : State) : Answer :=
  .next (s.setResultThenFlag x (s.reg y - s.reg x) (notBorrowFlag (s.reg y) (s.reg x))).advance

/-- `8xyE` SHL Vx, Vy (42_alu.md R160): the source is `Vy`. -/
def execShl (x y : Reg) (s : State) : Answer :=
  .next (s.setFlagThenResult x (s.reg y <<< 1) (shiftOutLeft (s.reg y))).advance

/-- `Vx <- r & kk` for a random byte `r` (42_alu.md R161). -/
def randomInto (r : Byte) (x : Reg) (kk : Byte) (s : State) : State := (s.setReg x (r &&& kk)).countDraw.advance

/-- `Cxkk` RND Vx, kk (42_alu.md R161): the byte is a free draw, the next of the `rand` port (log 3). -/
def execRnd (x : Reg) (kk : Byte) (s : State) : Answer := .next (randomInto (Config.rand s.draws) x kk s)

end Sys2Proof.Machine
end

