-- ==== Sys2Proof/Machine/Control.lean ====
section
/-! DEFINITION. Control transfer and skips (41_control.md). -/

namespace Sys2Proof.Machine

/-- `00EE` RET (41_control.md R130): the pop, then `PC` from the slot at the new `SP`; no advance. -/
def execRet (s : State) : Answer := .next (s.pop.setPc (s.pop.slot s.pop.sp))

/-- `1nnn` JP nnn (41_control.md R131). -/
def execJp (nnn : Addr) (s : State) : Answer := .next (s.setPc (zextAddr nnn))

/-- `2nnn` CALL nnn (41_control.md R132): the address of the next instruction is pushed. -/
def execCall (nnn : Addr) (s : State) : Answer := .next ((s.push (s.pc + 2)).setPc (zextAddr nnn))

/-- `3xkk` SE Vx, kk (41_control.md R133). -/
def execSeImm (x : Reg) (kk : Byte) (s : State) : Answer := .next (s.skipIf (s.reg x == kk))

/-- `4xkk` SNE Vx, kk (41_control.md R134). -/
def execSneImm (x : Reg) (kk : Byte) (s : State) : Answer := .next (s.skipIf (s.reg x != kk))

/-- `5xy0` SE Vx, Vy (41_control.md R135). -/
def execSeReg (x y : Reg) (s : State) : Answer := .next (s.skipIf (s.reg x == s.reg y))

/-- `9xy0` SNE Vx, Vy (41_control.md R136). -/
def execSneReg (x y : Reg) (s : State) : Answer := .next (s.skipIf (s.reg x != s.reg y))

/-- `Bnnn` JP V0, nnn (41_control.md R137). -/
def execJpV0 (nnn : Addr) (s : State) : Answer := .next (s.setPc (zextAddr nnn + zextByte (s.reg 0)))

end Sys2Proof.Machine
end

