-- ==== Sys2Proof/Machine/Graphics.lean ====
section
/-! DEFINITION. The display: clearing, sprite drawing, collision (44_display.md). -/

namespace Sys2Proof.Machine

/-- The index of pixel (column px, row py), row-major (44_display.md R200). -/
def pixelIndex (px py : Nat) : Nat := py * Config.dispW + px

/-- Pixel (column px, row py) of the display: the display read port (44_display.md R207). -/
def State.pixelAt (s : State) (px py : Nat) : Bool := s.disp.getLsbD (pixelIndex px py)

/-- The display and the collision seen so far, while a sprite is drawn. -/
structure Canvas where
  /-- The display. -/
  disp : Display
  /-- `coll`: has a pixel gone from on to off? -/
  coll : Bool
  deriving DecidableEq, Repr

/-- Is (px, py) on the display? Sprite pixels outside it are clipped, not wrapped (44_display.md R204). -/
def onDisplay (px py : Nat) : Bool := decide (px < Config.dispW ∧ py < Config.dispH)

/-- One set sprite bit at (px, py): clipped, or `coll <- 1` if the pixel was on, then `DISP[p] <- DISP[p] xor 1`
(44_display.md R202). -/
def Canvas.plot (c : Canvas) (px py : Nat) : Canvas :=
  if onDisplay px py then
    { disp := c.disp ^^^ BitVec.twoPow 2048 (pixelIndex px py), coll := c.coll || c.disp.getLsbD (pixelIndex px py) }
  else c

/-- Sprite column `c` of a row byte, MSB first: `row[7 - c]` (44_display.md R200). -/
def spriteBit (row : Byte) (c : Nat) : Bool := row.getLsbD (7 - c)

/-- One sprite row at (x0, py), columns 0 to 7 in order (44_display.md R202). -/
def Canvas.drawRow (c : Canvas) (x0 py : Nat) (row : Byte) : Canvas :=
  (List.range 8).foldl (fun c k => if spriteBit row k then c.plot (x0 + k) py else c) c

/-- The sprite's rows from row `py` downward (44_display.md R202). -/
def Canvas.drawRows (c : Canvas) (x0 py : Nat) : List Byte → Canvas
  | [] => c
  | row :: rows => (c.drawRow x0 py row).drawRows x0 (py + 1) rows

/-- The canvas after `Dxyn` drew its n rows from `I` at the origin of `V[x]` and `V[y]`; `coll` starts at 0
(44_display.md R202). -/
def State.drawSprite (s : State) (x y : Reg) (n : Nat) : Canvas :=
  Canvas.drawRows ⟨s.disp, false⟩ (originX (s.reg x)) (originY s.params (s.reg y)) (s.bytesAt s.base n)

/-- `00E0` CLS (44_display.md R201). -/
def execCls (s : State) : Answer := .next (s.showDisplay 0).advance

/-- `Dxyn` DRW Vx, Vy, n (44_display.md R202): every row is read and checked, clipped or not. -/
def execDrw (x y : Reg) (n : Nat) (s : State) : Answer :=
  afterCheck (checkReads s.base n) s
    ((s.showDisplay (s.drawSprite x y n).disp).setReg VF (flagByte (s.drawSprite x y n).coll)).advance

end Sys2Proof.Machine
end

