-- ==== Sys2Proof/Machine/IndexMemory.lean ====
section
/-! DEFINITION. The index register and the memory transfers (43_index_memory.md). -/

namespace Sys2Proof.Machine

/-- `Annn` LD I, nnn (43_index_memory.md R180). -/
def execLdI (nnn : Addr) (s : State) : Answer := .next (s.setI (zextAddr nnn)).advance

/-- `Fx1E` ADD I, Vx (43_index_memory.md R181): modulo 65536, no flag. -/
def execAddI (x : Reg) (s : State) : Answer := .next (s.setI (s.i + zextByte (s.reg x))).advance

/-- `Fx29` LD F, Vx (43_index_memory.md R182). -/
def execLdF (x : Reg) (s : State) : Answer := .next (s.setI (glyphAddr (s.reg x))).advance

/-- `Fx33` LD B, Vx (43_index_memory.md R183): three digits at `I`, `I + 1`, `I + 2`; `I` stays. -/
def execLdB (x : Reg) (s : State) : Answer :=
  afterCheck (checkWrites s.params s.base 3) s (s.doWrites s.base (decimalDigits (s.reg x))).advance

/-- `Fx55` LD [I], Vx (43_index_memory.md R184): V0 to Vx stored from `I` upward, `I` moved past them. -/
def execStoreRegs (x : Reg) (s : State) : Answer :=
  afterCheck (checkWrites s.params s.base (x.val + 1)) s
    ((s.doWrites s.base (s.regsUpTo x)).setI (s.baseAfter x)).advance

/-- `Fx65` LD Vx, [I] (43_index_memory.md R185): V0 to Vx loaded from `I` upward, `I` moved past them. -/
def execLoadRegs (x : Reg) (s : State) : Answer :=
  afterCheck (checkReads s.base (x.val + 1)) s
    ((s.setRegs (s.bytesAt s.base (x.val + 1))).setI (s.baseAfter x)).advance

end Sys2Proof.Machine
end

