-- ==== Sys2Proof/Machine/KeysTimers.lean ====
section
/-! DEFINITION. Key input and timer transfers (45_input_timers.md). -/

namespace Sys2Proof.Machine

/-- A skip decided by the key test of `V[x]`, or the error the test raises (45_input_timers.md R220). -/
def skipOnKey (wanted : Bool) (x : Reg) (s : State) : Answer :=
  match pressed s.params s.key (s.reg x) with
  | .error e => .next (s.haltWith e)
  | .ok p => .next (s.skipIf (p == wanted))

/-- `Ex9E` SKP Vx (45_input_timers.md R221). -/
def execSkp (x : Reg) (s : State) : Answer := skipOnKey true x s

/-- `ExA1` SKNP Vx (45_input_timers.md R222). -/
def execSknp (x : Reg) (s : State) : Answer := skipOnKey false x s

/-- `Fx0A` LD Vx, K (45_input_timers.md R223): with no release nothing changes, and the step repeats. -/
def execLdVxK (x : Reg) (s : State) : Answer :=
  match releasedKey s.keyp s.key with
  | none => .next s
  | some k => .next (s.setReg x (BitVec.ofNat 8 k)).advance

/-- `Fx07` LD Vx, DT (45_input_timers.md R224). -/
def execLdVxDt (x : Reg) (s : State) : Answer := .next (s.setReg x s.dt).advance

/-- `Fx15` LD DT, Vx (45_input_timers.md R225). -/
def execLdDtVx (x : Reg) (s : State) : Answer := .next (s.setDt (s.reg x)).advance

/-- `Fx18` LD ST, Vx (45_input_timers.md R226). -/
def execLdStVx (x : Reg) (s : State) : Answer := .next (s.setSt (s.reg x)).advance

end Sys2Proof.Machine
end

