-- ==== Sys2Proof/Machine/Step.lean ====
section
/-! DEFINITION. The fetch-decode-execute step (40_cycle.md R110), and the placing of a word where the step fetches. -/

namespace Sys2Proof.Machine

/-- One `step()` (40_cycle.md R110): a halted block does nothing (R119, log 6), a fetch outside memory halts (R112), an
unknown word is reported and skipped (R116), an instruction is executed. -/
def step (s : State) : Host.Outcome State Fault Refusal :=
  match s.halt with
  | some _ => .next s
  | none =>
    match fetch s with
    | .error e => .next (s.haltWith e)
    | .ok w =>
      match decode w with
      | .unknown u => .next (s.reportUnknown u)
      | .known i => exec i s

/-- The state with an opcode-table word stored where `step` fetches its next instruction (log 7). -/
def State.withFetchWord (s : State) (nbits w : Nat) : State :=
  match tableBytes nbits w with
  | hi :: lo :: _ => s.placeWordAtPc hi lo
  | _ => s

end Sys2Proof.Machine
end

