-- ==== Sys2Proof/Machine/HostActions.lean ====
section
/-! DEFINITION. The host's side of the block: timer tick, latch edit, repaint query, sound output, a frame of actions
(45_input_timers.md R230 to R233, 44_display.md R206), and the construction of a session (70_reset_and_hazards.md R270). -/

namespace Sys2Proof.Machine

/-- A timer after one tick: counted down, floor at 0 (45_input_timers.md R230). -/
def countDown (b : Byte) : Byte := if b = 0 then 0 else b - 1

/-- `tick()` (45_input_timers.md R230). -/
def State.tick (s : State) : State := { s with dt := countDown s.dt, st := countDown s.st }

/-- `keyEdit(v)` (45_input_timers.md R232). -/
def State.keyEdit (s : State) (v : Word) : State := { s with keyp := s.key, key := v }

/-- `repaintQuery`: the answer `DRAW` and the state with `DRAW <- 0` (44_display.md R206). -/
def State.repaintQuery (s : State) : Bool × State := (s.draw, { s with draw := false })

/-- `soundOn = (ST > 0)` (45_input_timers.md R231). -/
def State.soundOn (s : State) : Bool := decide (0 < s.st.toNat)

/-- What the two agents do, one action at a time (10_state.md R46). -/
inductive Action where
  /-- The core's step. -/
  | step
  /-- The host's timer tick. -/
  | tick
  /-- The host's latch edit. -/
  | keyEdit (v : Word)
  /-- The host's repaint query. -/
  | repaintQuery
  deriving DecidableEq, Repr

/-- One action between two states (10_state.md R46, 40_cycle.md R117). A halted block is frozen for the rest of the session
(40_cycle.md R119): then no action changes anything. DEDUCED (log 6). -/
def act (a : Action) (s : State) : Answer :=
  match s.halt with
  | some _ => .next s
  | none =>
    match a with
    | .step => Sys2Proof.Machine.step s
    | .tick => .next s.tick
    | .keyEdit v => .next (s.keyEdit v)
    | .repaintQuery => .next s.repaintQuery.2

/-- A sequence of actions, in order; with `stepsPerFrame` open every interleaving is such a sequence
(45_input_timers.md R233; log 8). -/
def runActions : List Action → State → Answer
  | [], s => .next s
  | a :: rest, s =>
    match act a s with
    | .next t => runActions rest t
    | .fault r => .fault r
    | .refused r => .refused r

/-- One frame (45_input_timers.md R233): as many steps as the list has entries, each preceded by its latch edits, then one
repaint query, then one tick. -/
def frameActions (edits : List (List Word)) : List Action :=
  edits.flatMap (fun vs => vs.map Action.keyEdit ++ [Action.step]) ++ [Action.repaintQuery, Action.tick]

/-- What `construct` places at an address (70_reset_and_hazards.md R270): the font, the image from 512, `initFill`
elsewhere. -/
def initialByte (font initFill : Nat → Byte) (image : List Byte) (a : Nat) : Byte :=
  if a < Config.fontLen then font a
  else if Config.progBase ≤ a ∧ a < Config.progBase + image.length then image.getD (a - Config.progBase) 0
  else initFill a

/-- `construct(image)` (70_reset_and_hazards.md R270, R272): the state at the start of a session, for every choice of the
parameters, of `font`, `initFill` and `initStack`; an image of more than 3584 bytes is a `LoadError` and no state exists. -/
def construct (params : Params) (font initFill : Nat → Byte) (initStack : Vector Word 16) (image : List Byte) : Answer :=
  if Config.progMax < image.length then .fault .loadError
  else
    .next { State.reset with
      mem := Memory.ofContents (initialByte font initFill image), stack := initStack, params := params }

end Sys2Proof.Machine
end

