-- ==== Sys2Proof/Safety.lean ====
section
/-! DEFINITION. The terms claims are stated in: what two states agree on, what a step fetches, which bytes an instruction
may write, what a sprite covers, and the invariant of a safe run. -/

namespace Sys2Proof.Machine

/-! ### Frames -/

/-- The fields of the state, by name. -/
inductive Field where
  | mem | v | i | pc | sp | stack | dt | st | key | keyp | disp | draw | halt | diag | draws | params
  deriving DecidableEq, Repr

/-- The two states agree on one field; memory is compared by what every address reads as, registers and stack slots one by
one. -/
def AgreeOn : Field → State → State → Prop
  | .mem, s, t => ∀ a : Nat, t.byteAt a = s.byteAt a
  | .v, s, t => ∀ r : Reg, t.reg r = s.reg r
  | .i, s, t => t.i = s.i
  | .pc, s, t => t.pc = s.pc
  | .sp, s, t => t.sp = s.sp
  | .stack, s, t => ∀ j : Fin 16, t.slot j = s.slot j
  | .dt, s, t => t.dt = s.dt
  | .st, s, t => t.st = s.st
  | .key, s, t => t.key = s.key
  | .keyp, s, t => t.keyp = s.keyp
  | .disp, s, t => t.disp = s.disp
  | .draw, s, t => t.draw = s.draw
  | .halt, s, t => t.halt = s.halt
  | .diag, s, t => t.diag = s.diag
  | .draws, s, t => t.draws = s.draws
  | .params, s, t => t.params = s.params

/-- From `s` to `t` nothing changed but, at most, the fields listed. -/
def UnchangedBut (changed : List Field) (s t : State) : Prop := ∀ f : Field, f ∉ changed → AgreeOn f s t

/-- From `s` to `t` no V register changed but, at most, the ones listed. -/
def RegsUnchangedBut (changed : List Reg) (s t : State) : Prop := ∀ r : Reg, r ∉ changed → t.reg r = s.reg r

/-! ### Words and fetches -/

/-- Every word `w` with `w & mask = value` decodes to `instr w` (a row of 30_encoding.md R93). -/
def EncodedAs (value mask : Word) (instr : Word → Instr) : Prop :=
  ∀ w : Word, w &&& mask = value → decode w = .known (instr w)

/-- A running block fetches the word `w`: the two bytes at `PC` lie in memory and are `w`, the high byte first
(40_cycle.md R111). -/
def Fetches (s : State) (w : Word) : Prop :=
  s.halt = none ∧ s.pc.toNat + 1 < 4096 ∧
    w.toNat = (s.byteAt s.pc.toNat).toNat * 256 + (s.byteAt (s.pc.toNat + 1)).toNat

/-- A running block executes the instruction `i` in its next step. -/
def Executes (s : State) (i : Instr) : Prop := ∃ w : Word, Fetches s w ∧ decode w = .known i

/-! ### Writes -/

/-- An instruction's write at `a` raises nothing: the address exists and its region's policy is not `fault`
(20_memory.md R63, R64). -/
def Writable (s : State) (a : Nat) : Prop :=
  a < 4096 ∧ (a < 80 → s.params.fontWritePolicy ≠ .fault) ∧ (80 ≤ a → a < 512 → s.params.lowWritePolicy ≠ .fault)

/-- An instruction's write at `a` is dropped: its region's policy is `ignore` (20_memory.md R64). -/
def Dropped (s : State) (a : Nat) : Prop :=
  (a < 80 ∧ s.params.fontWritePolicy = .ignore) ∨ (80 ≤ a ∧ a < 512 ∧ s.params.lowWritePolicy = .ignore)

/-- The kind of error a write at `a` that is not `Writable` raises (20_memory.md R63, R64). -/
def writeErrorKind (a : Nat) : ErrorKind := if 4096 ≤ a then .outOfBounds else .protectedWrite

/-- `t` is `s` halted by an error of this kind at this address, and nothing else: the record holds the kind, the `PC`, the
address and the two instruction bytes (60_exceptions.md R241, R242). -/
def HaltedBy (kind : ErrorKind) (addr : Nat) (s t : State) : Prop :=
  (∃ raw : List Byte, t.halt = some { kind := kind, pc := s.pc, addr := addr, raw := raw } ∧
    (s.pc.toNat + 1 < 4096 → raw = [s.byteAt s.pc.toNat, s.byteAt (s.pc.toNat + 1)])) ∧
  UnchangedBut [.halt] s t

/-! ### Sprites and keys -/

/-- Does the n-row sprite at `I`, drawn at the origin of `V[x]` and `V[y]`, have a set bit at pixel (px, py)?
(44_display.md R200, R202, R204) -/
def spriteCovers (s : State) (x y : Reg) (n px py : Nat) : Bool :=
  let x0 := (s.reg x).toNat % 64
  let y0 := (s.reg y).toNat % yModulus s.params.drawYMod
  decide (x0 ≤ px ∧ px < x0 + 8 ∧ y0 ≤ py ∧ py < y0 + n) && (s.byteAt (s.base + (py - y0))).getLsbD (7 - (px - x0))

/-- Key k went from pressed to not pressed at the last latch edit (45_input_timers.md R223). -/
def Released (s : State) (k : Nat) : Prop := s.keyp.getLsbD k = true ∧ s.key.getLsbD k = false

/-! ### The safe runs -/

/-- The fault record in `HALT`, if there is one, is what a step of this state raised: it names the state's own `PC` and
instruction bytes, its kind is a fatal one, and its address is one that kind can record (60_exceptions.md R241, R242). -/
def HaltRecordFits (s : State) : Prop :=
  ∀ r : FaultRecord, s.halt = some r →
    r.pc = s.pc ∧ r.raw = s.rawAtPc ∧
      ((r.kind = .outOfBounds ∧ 4096 ≤ r.addr) ∨ (r.kind = .protectedWrite ∧ r.addr < 512) ∨
        (r.kind = .keyIndex ∧ 16 ≤ r.addr ∧ r.addr < 256))

/-- `PC` is at most 0x10FE and every return address at most 4096 (10_state.md R27). -/
def PcInRange (s : State) : Prop := s.pc.toNat ≤ 0x10FE ∧ ∀ j : Fin 16, (s.slot j).toNat ≤ 4096

/-- The invariant of a session whose stack slots start at most at 4096: memory in canonical form, a fitting fault record,
`PC` in range. -/
structure Safe (s : State) : Prop where
  /-- Memory is in canonical form. -/
  memCanonical : s.mem.wf
  /-- The fault record fits the state. -/
  haltFits : HaltRecordFits s
  /-- `PC` and the return addresses are in range. -/
  pcInRange : PcInRange s

/-- The machine goes on whatever the two agents do: every sequence of actions answers a next state
(40_cycle.md R118). -/
def NeverStops (s : State) : Prop := ∀ actions : List Action, ∃ t : State, runActions actions s = .next t

end Sys2Proof.Machine
end

