-- ==== Sys2Proof/Certificates/Slice0/Obligations.lean ====
section
/-! DEFINITION. The statements about the machine, from the numbered rules of spec/. A statement that cites a rule as stated
says all of that rule; the others are derived from the sections their docstrings name. -/

open Sys2Proof Sys2Proof.Machine

/-! ### Encoding (30_encoding.md) -/

/-- 30_encoding.md R93, R94: the decoder reads back every operand of every well-formed instruction. -/
def Obligations.DecodeInvertsEncode : Prop :=
  ∀ i : Instr, i.wellFormed = true → decode (encode i) = .known i

/-- 30_encoding.md R99: no instruction has a don't-care bit, so a word that decodes to an instruction is its only word. -/
def Obligations.EncodeInvertsDecode : Prop :=
  ∀ (w : Word) (i : Instr), decode w = .known i → i.wellFormed = true ∧ encode i = w

/-- 30_encoding.md R93: there are 34 rows, a word is a row's instruction exactly when `w & mask = match`, every
instruction word is some row's, and no two rows match one word. -/
def Obligations.DecoderFollowsTheOpcodeMap : Prop :=
  opcodeMap.length = 34 ∧
  (∀ row ∈ opcodeMap, ∀ w : Word, w &&& row.mask = row.value ↔ decode w = .known (row.instr w)) ∧
  (∀ (w : Word) (i : Instr), decode w = .known i → ∃ row ∈ opcodeMap, w &&& row.mask = row.value ∧ i = row.instr w) ∧
  opcodeMap.Pairwise (fun r q => ∀ w : Word, ¬ (w &&& r.mask = r.value ∧ w &&& q.mask = q.value))

/-- 30_encoding.md R96 (its table of unknown words, without the counts): the unknown words, family by family. -/
def Obligations.UnknownWordsByFamily : Prop :=
  ∀ w : Word, decode w = .unknown w ↔
    (w.toNat < 0x1000 ∧ w ≠ 0x00E0 ∧ w ≠ 0x00EE) ∨
    (w.toNat / 0x1000 = 0x5 ∧ w.toNat % 16 ≠ 0) ∨
    (w.toNat / 0x1000 = 0x8 ∧ w.toNat % 16 ∈ [0x8, 0x9, 0xA, 0xB, 0xC, 0xD, 0xF]) ∨
    (w.toNat / 0x1000 = 0x9 ∧ w.toNat % 16 ≠ 0) ∨
    (w.toNat / 0x1000 = 0xE ∧ w.toNat % 256 ∉ [0x9E, 0xA1]) ∨
    (w.toNat / 0x1000 = 0xF ∧ w.toNat % 256 ∉ [0x07, 0x0A, 0x15, 0x18, 0x1E, 0x29, 0x33, 0x55, 0x65])

/-- 30_encoding.md R93: sample words, one of each family, written out from the patterns. -/
def Obligations.SampleWordsDecode : Prop :=
  decode 0x00E0 = .known .cls ∧ decode 0x00EE = .known .ret ∧ decode 0x1234 = .known (.jp 0x234) ∧
  decode 0x5120 = .known (.seReg 1 2) ∧ decode 0x5121 = .unknown 0x5121 ∧ decode 0x7AFF = .known (.addImm 10 0xFF) ∧
  decode 0x812E = .known (.shl 1 2) ∧ decode 0xBF01 = .known (.jpV0 0xF01) ∧ decode 0xD12F = .known (.drw 1 2 15) ∧
  decode 0xEBA1 = .known (.sknp 11) ∧ decode 0xF30A = .known (.ldVxK 3) ∧ decode 0xFF55 = .known (.storeRegs 15)

/-! ### The step (40_cycle.md, 60_exceptions.md) -/

/-- 40_cycle.md R110, R111: when the big-endian word at `PC` decodes to an instruction, the step executes it at that very
state; the meaning itself sets `PC`. -/
def Obligations.StepExecutesTheDecodedInstruction : Prop :=
  ∀ (s : State) (w : Word) (i : Instr), Fetches s w → decode w = .known i → step s = exec i s

/-- 40_cycle.md R116: an unknown word is reported with its address, `PC` advances by 2, nothing else changes, and the block
goes on. -/
def Obligations.UnknownWordReportedAndSkipped : Prop :=
  ∀ (s : State) (w : Word), Fetches s w → decode w = .unknown w →
    ∃ t, step s = .next t ∧ t.diag = s.diag ++ [⟨s.pc, w⟩] ∧ t.pc = s.pc + 2 ∧ t.halt = none ∧
      UnchangedBut [.diag, .pc] s t

/-- 40_cycle.md R112: the fetch fault at `PC = 4095` and from 4096 on, its record, and that nothing else is written. -/
def Obligations.FetchOutsideMemoryHalts : Prop :=
  ∀ s : State, s.halt = none → 4096 ≤ s.pc.toNat + 1 →
    ∃ t, step s = .next t ∧
      (s.pc.toNat = 4095 → t.halt = some ⟨.outOfBounds, s.pc, 4096, [s.byteAt 4095]⟩) ∧
      (4096 ≤ s.pc.toNat → t.halt = some ⟨.outOfBounds, s.pc, s.pc.toNat, []⟩) ∧ UnchangedBut [.halt] s t

/-- 40_cycle.md R119: a halted block has no step. That the host's actions leave the frozen state alone too is the model's
reading (log 6). -/
def Obligations.HaltedBlockIsFrozen : Prop :=
  ∀ (s : State) (r : FaultRecord), s.halt = some r → step s = .next s ∧ ∀ a : Action, act a s = .next s

/-- 40_cycle.md R118: the block never refuses a word and has no outcome but a next state; so no sequence of actions of the
two agents ever stops. That a fatal error is a next state and that a halted block answers its own state is the model's
reading (log 5, log 6). -/
def Obligations.NoRunEverStops : Prop := ∀ s : State, (∃ t, step s = .next t) ∧ NeverStops s

/-- 60_exceptions.md R242: a fatal error sets `HALT` to the record and changes nothing else, `PC` still names the faulting
instruction, and the block takes no further step. -/
def Obligations.FatalErrorsArePrecise : Prop :=
  ∀ (s t : State) (r : FaultRecord), s.halt = none → step s = .next t → t.halt = some r →
    UnchangedBut [.halt] s t ∧ r.pc = s.pc ∧ t.pc = s.pc ∧ r.raw = s.rawAtPc ∧
      (r.kind = .outOfBounds ∨ r.kind = .protectedWrite ∨ r.kind = .keyIndex) ∧ step t = .next t

/-- 60_exceptions.md R243: `OutOfBounds` is raised exactly by a fetch at `PC >= 4095`, a `Dxyn` with `n > 0` and
`I + n - 1 >= 4096`, an `Fx33` with `I + 2 >= 4096`, an `Fx55` or `Fx65` with `I + x >= 4096`; the record holds the lowest
offending address. -/
def Obligations.OutOfBoundsRaisedExactlyWhen : Prop :=
  ∀ s t : State, s.halt = none → step s = .next t → ∀ addr : Nat,
    ((∃ r : FaultRecord, t.halt = some r ∧ r.kind = .outOfBounds ∧ r.addr = addr) ↔
      (4095 ≤ s.pc.toNat ∧ addr = max s.pc.toNat 4096) ∨
      (addr = max s.i.toNat 4096 ∧
        ((∃ x y n, Executes s (.drw x y n) ∧ 0 < n ∧ 4096 ≤ s.i.toNat + n - 1) ∨
         (∃ x, Executes s (.ldB x) ∧ 4096 ≤ s.i.toNat + 2) ∨
         (∃ x : Reg, (Executes s (.storeRegs x) ∨ Executes s (.loadRegs x)) ∧ 4096 ≤ s.i.toNat + x.val))))

/-- 60_exceptions.md R245: `ProtectedWrite` is raised exactly by `Fx33` or `Fx55` when one of the bytes it would write is
below 80 and `fontWritePolicy = fault`, or in 80 to 511 and `lowWritePolicy = fault`. -/
def Obligations.ProtectedWriteRaisedExactlyWhen : Prop :=
  ∀ s t : State, s.halt = none → step s = .next t →
    ((∃ r : FaultRecord, t.halt = some r ∧ r.kind = .protectedWrite) ↔
      ∃ len : Nat, ((∃ x, Executes s (.ldB x) ∧ len = 3) ∨ (∃ x : Reg, Executes s (.storeRegs x) ∧ len = x.val + 1)) ∧
        ∃ a : Nat, s.i.toNat ≤ a ∧ a < s.i.toNat + len ∧
          ((a < 80 ∧ s.params.fontWritePolicy = .fault) ∨ (80 ≤ a ∧ a < 512 ∧ s.params.lowWritePolicy = .fault)))

/-- 60_exceptions.md R246: `KeyIndex` is raised exactly by `Ex9E` or `ExA1` when `V[x] >= 16` and
`keyIndexPolicy = fault`. -/
def Obligations.KeyIndexRaisedExactlyWhen : Prop :=
  ∀ s t : State, s.halt = none → step s = .next t →
    ((∃ r : FaultRecord, t.halt = some r ∧ r.kind = .keyIndex) ↔
      ∃ x, (Executes s (.skp x) ∨ Executes s (.sknp x)) ∧ 16 ≤ (s.reg x).toNat ∧ s.params.keyIndexPolicy = .fault)

/-! ### Invariants and whole-machine rules -/

/-- The reset state meets the invariant (10_state.md R42; the stack slots are the model's choice, log 2). -/
def Obligations.ResetIsSafe : Prop := Safe State.reset

/-- 10_state.md R27, R43, 60_exceptions.md R242: every step keeps memory canonical, the fault record fitting, `PC` at most
0x10FE and every return address at most 4096. -/
def Obligations.StepKeepsSafe : Prop := ∀ s t : State, Safe s → step s = .next t → Safe t

/-- 10_state.md R43: every host action keeps the invariant too, so every run of the two agents does (on a halted block a
host action changes nothing, log 6). -/
def Obligations.EveryRunKeepsSafe : Prop :=
  ∀ (actions : List Action) (s t : State), Safe s → runActions actions s = .next t → Safe t

/-- 70_reset_and_hazards.md R283, 20_memory.md R64: while neither policy is `write` (the defaults are not), no run changes
a byte below 512. -/
def Obligations.LowMemoryIsNeverWritten : Prop :=
  ∀ (actions : List Action) (s t : State), s.params.fontWritePolicy ≠ .write → s.params.lowWritePolicy ≠ .write →
    runActions actions s = .next t → ∀ a < 512, t.byteAt a = s.byteAt a

/-- The V registers an instruction may write (10_state.md R24). -/
def regsWritten : Instr → List Reg
  | .ldImm x _ | .addImm x _ | .ldReg x _ | .rnd x _ | .ldVxDt x | .ldVxK x => [x]
  | .orReg x _ | .andReg x _ | .xorReg x _ | .addReg x _ | .subReg x _ | .subn x _ | .shr x _ | .shl x _ => [x, VF]
  | .drw _ _ _ => [VF]
  | .loadRegs x => (List.finRange 16).filter (fun r => r ≤ x)
  | .cls | .ret | .jp _ | .call _ | .seImm _ _ | .sneImm _ _ | .seReg _ _ | .sneReg _ _ | .ldI _ | .jpV0 _ | .skp _
  | .sknp _ | .ldDtVx _ | .ldStVx _ | .addI _ | .ldF _ | .ldB _ | .storeRegs _ => []

/-- The fields besides `V`, `PC` and `HALT` an instruction may write (10_state.md R28, R30, R33 to R37, 20_memory.md
R64). -/
def fieldsWritten : Instr → List Field
  | .call _ => [.stack, .sp]
  | .ret => [.sp]
  | .ldI _ | .addI _ | .ldF _ | .loadRegs _ => [.i]
  | .storeRegs _ => [.mem, .i]
  | .ldB _ => [.mem]
  | .cls | .drw _ _ _ => [.disp, .draw]
  | .ldDtVx _ => [.dt]
  | .ldStVx _ => [.st]
  | .rnd _ _ => [.draws]
  | .jp _ | .seImm _ _ | .sneImm _ _ | .seReg _ _ | .sneReg _ _ | .jpV0 _ | .ldImm _ _ | .addImm _ _ | .ldReg _ _
  | .orReg _ _ | .andReg _ _ | .xorReg _ _ | .addReg _ _ | .subReg _ _ | .subn _ _ | .shr _ _ | .shl _ _ | .skp _
  | .sknp _ | .ldVxDt _ | .ldVxK _ => []

/-- Which state each instruction may write, for all 34: the stack only `2nnn` (and `SP` also `00EE`), the display only
`00E0` and `Dxyn`, the latches and `DIAG` none, the timers only `Fx15` and `Fx18`, memory only `Fx33` and `Fx55`, the V
registers as 10_state.md R24 lists them. That `Cxkk` alone advances `draws` (log 3) and that nothing writes `params` (log 4)
are clauses about the model's own fields. -/
def Obligations.EachInstructionWritesOnlyItsOwnState : Prop :=
  ∀ (i : Instr) (s t : State), exec i s = .next t →
    RegsUnchangedBut (regsWritten i) s t ∧ UnchangedBut (.v :: .pc :: .halt :: fieldsWritten i) s t

/-- The `PC` an instruction that completes leaves (40_cycle.md R114). -/
def pcAfter (i : Instr) (s : State) : Word :=
  match i with
  | .ret => s.slot (s.sp - 1)
  | .jp nnn | .call nnn => BitVec.ofNat 16 nnn.toNat
  | .jpV0 nnn => BitVec.ofNat 16 (nnn.toNat + (s.reg 0).toNat)
  | .seImm x kk => if s.reg x = kk then s.pc + 4 else s.pc + 2
  | .sneImm x kk => if s.reg x = kk then s.pc + 2 else s.pc + 4
  | .seReg x y => if s.reg x = s.reg y then s.pc + 4 else s.pc + 2
  | .sneReg x y => if s.reg x = s.reg y then s.pc + 2 else s.pc + 4
  | .skp x => if pressed s.params s.key (s.reg x) = .ok true then s.pc + 4 else s.pc + 2
  | .sknp x => if pressed s.params s.key (s.reg x) = .ok true then s.pc + 2 else s.pc + 4
  | .ldVxK _ => if (releasedKey s.keyp s.key).isSome then s.pc + 2 else s.pc
  | .cls | .ldImm _ _ | .addImm _ _ | .ldReg _ _ | .orReg _ _ | .andReg _ _ | .xorReg _ _ | .addReg _ _ | .subReg _ _
  | .shr _ _ | .subn _ _ | .shl _ _ | .ldI _ | .rnd _ _ | .drw _ _ _ | .ldVxDt _ | .ldDtVx _ | .ldStVx _ | .addI _
  | .ldF _ | .ldB _ | .storeRegs _ | .loadRegs _ => s.pc + 2

/-- 40_cycle.md R114: the `PC` policy, for every instruction and every unknown word that a running block executes without a
fatal error. -/
def Obligations.ProgramCounterPolicy : Prop :=
  ∀ s t : State, step s = .next t → t.halt = none →
    (∀ i, Executes s i → t.pc = pcAfter i s) ∧ (∀ w, Fetches s w → decode w = .unknown w → t.pc = s.pc + 2)

/-! ### Control transfer (41_control.md) -/

/-- 41_control.md R130: the encoding, the pop, `PC` from the slot at the new `SP`, and that nothing else changes. -/
def Obligations.ReturnPopsTheStack : Prop :=
  EncodedAs 0x00EE 0xFFFF (fun _ => .ret) ∧
  ∀ s : State, ∃ t, exec .ret s = .next t ∧ t.sp.val = (s.sp.val + 15) % 16 ∧ t.pc = s.slot t.sp ∧
    UnchangedBut [.sp, .pc] s t

/-- 41_control.md R131: the encoding, `PC <- nnn`, nothing else changes; a jump to itself changes nothing at all. -/
def Obligations.JumpSetsThePc : Prop :=
  EncodedAs 0x1000 0xF000 (fun w => .jp (fieldNnn w)) ∧
  ∀ (nnn : Addr) (s : State),
    (∃ t, exec (.jp nnn) s = .next t ∧ t.pc.toNat = nnn.toNat ∧ UnchangedBut [.pc] s t) ∧
    (nnn.toNat = s.pc.toNat → exec (.jp nnn) s = .next s)

/-- 41_control.md R132: the encoding, `S[SP] <- pc0 + 2`, `SP` up modulo 16, `PC <- nnn`; no other slot and nothing else
changes. -/
def Obligations.CallPushesTheNextAddress : Prop :=
  EncodedAs 0x2000 0xF000 (fun w => .call (fieldNnn w)) ∧
  ∀ (nnn : Addr) (s : State), ∃ t, exec (.call nnn) s = .next t ∧
    (t.slot s.sp).toNat = (s.pc.toNat + 2) % 65536 ∧ (∀ j : Fin 16, j ≠ s.sp → t.slot j = s.slot j) ∧
    t.sp.val = (s.sp.val + 1) % 16 ∧ t.pc.toNat = nnn.toNat ∧ UnchangedBut [.stack, .sp, .pc] s t

/-- 41_control.md R133, R134: the skips on an immediate. -/
def Obligations.SkipsOnAnImmediate : Prop :=
  EncodedAs 0x3000 0xF000 (fun w => .seImm (fieldX w) (fieldKk w)) ∧
  EncodedAs 0x4000 0xF000 (fun w => .sneImm (fieldX w) (fieldKk w)) ∧
  ∀ (x : Reg) (kk : Byte) (s : State),
    (∃ t, exec (.seImm x kk) s = .next t ∧ UnchangedBut [.pc] s t ∧
      (s.reg x = kk → t.pc = s.pc + 4) ∧ (s.reg x ≠ kk → t.pc = s.pc + 2)) ∧
    (∃ t, exec (.sneImm x kk) s = .next t ∧ UnchangedBut [.pc] s t ∧
      (s.reg x ≠ kk → t.pc = s.pc + 4) ∧ (s.reg x = kk → t.pc = s.pc + 2))

/-- 41_control.md R135, R136: the skips on two registers. -/
def Obligations.SkipsOnRegisters : Prop :=
  EncodedAs 0x5000 0xF00F (fun w => .seReg (fieldX w) (fieldY w)) ∧
  EncodedAs 0x9000 0xF00F (fun w => .sneReg (fieldX w) (fieldY w)) ∧
  ∀ (x y : Reg) (s : State),
    (∃ t, exec (.seReg x y) s = .next t ∧ UnchangedBut [.pc] s t ∧
      (s.reg x = s.reg y → t.pc = s.pc + 4) ∧ (s.reg x ≠ s.reg y → t.pc = s.pc + 2)) ∧
    (∃ t, exec (.sneReg x y) s = .next t ∧ UnchangedBut [.pc] s t ∧
      (s.reg x ≠ s.reg y → t.pc = s.pc + 4) ∧ (s.reg x = s.reg y → t.pc = s.pc + 2))

/-- 41_control.md R137: `PC <- nnn + V0`, never reduced; the sum is at most 0x10FE. -/
def Obligations.JumpPlusV0 : Prop :=
  EncodedAs 0xB000 0xF000 (fun w => .jpV0 (fieldNnn w)) ∧
  ∀ (nnn : Addr) (s : State), ∃ t, exec (.jpV0 nnn) s = .next t ∧ t.pc.toNat = nnn.toNat + (s.reg 0).toNat ∧
    t.pc.toNat ≤ 0x10FE ∧ UnchangedBut [.pc] s t

/-- 41_control.md R138: a return after a call, with `SP` and the slot as the call left them, goes to the call's address
plus 2 and restores `SP`. -/
def Obligations.CallThenReturn : Prop :=
  ∀ (nnn : Addr) (s : State), ∃ t, exec (.call nnn) s = .next t ∧
    ∀ t' : State, t'.sp = t.sp → t'.slot s.sp = t.slot s.sp →
      ∃ u, exec .ret t' = .next u ∧ u.pc = s.pc + 2 ∧ u.sp = s.sp

/-! ### Loads and ALU (42_alu.md) -/

/-- 42_alu.md R150, R151, R152: the load of an immediate, the add of an immediate (modulo 256, no flag), the copy. No
register but `Vx` changes, `VF` included. -/
def Obligations.LoadsAndImmediateAdd : Prop :=
  EncodedAs 0x6000 0xF000 (fun w => .ldImm (fieldX w) (fieldKk w)) ∧
  EncodedAs 0x7000 0xF000 (fun w => .addImm (fieldX w) (fieldKk w)) ∧
  EncodedAs 0x8000 0xF00F (fun w => .ldReg (fieldX w) (fieldY w)) ∧
  ∀ (x y : Reg) (kk : Byte) (s : State),
    (∃ t, exec (.ldImm x kk) s = .next t ∧ t.reg x = kk ∧ t.pc = s.pc + 2 ∧
      RegsUnchangedBut [x] s t ∧ UnchangedBut [.v, .pc] s t) ∧
    (∃ t, exec (.addImm x kk) s = .next t ∧ (t.reg x).toNat = ((s.reg x).toNat + kk.toNat) % 256 ∧ t.pc = s.pc + 2 ∧
      RegsUnchangedBut [x] s t ∧ UnchangedBut [.v, .pc] s t) ∧
    (∃ t, exec (.ldReg x y) s = .next t ∧ t.reg x = s.reg y ∧ t.pc = s.pc + 2 ∧
      RegsUnchangedBut [x] s t ∧ UnchangedBut [.v, .pc] s t)

/-- What OR, AND and XOR have in common: the result in `Vx`, bit by bit, then `VF <- 0`, which wins when x = F. -/
def BitwiseThenClear (i : Reg → Reg → Instr) (op : Bool → Bool → Bool) : Prop :=
  ∀ (x y : Reg) (s : State), ∃ t, exec (i x y) s = .next t ∧
    (x ≠ VF → ∀ k < 8, (t.reg x).getLsbD k = op ((s.reg x).getLsbD k) ((s.reg y).getLsbD k)) ∧
    t.reg VF = 0 ∧ t.pc = s.pc + 2 ∧ RegsUnchangedBut [x, VF] s t ∧ UnchangedBut [.v, .pc] s t

/-- 42_alu.md R153, R154, R155: OR, AND and XOR, and the flag they clear. -/
def Obligations.BitwiseOperationsClearVF : Prop :=
  EncodedAs 0x8001 0xF00F (fun w => .orReg (fieldX w) (fieldY w)) ∧
  EncodedAs 0x8002 0xF00F (fun w => .andReg (fieldX w) (fieldY w)) ∧
  EncodedAs 0x8003 0xF00F (fun w => .xorReg (fieldX w) (fieldY w)) ∧
  BitwiseThenClear .orReg or ∧ BitwiseThenClear .andReg and ∧ BitwiseThenClear .xorReg xor

/-- 42_alu.md R156: the sum modulo 256, and `VF` 1 exactly when the mathematical sum exceeds 255; with x = F the flag is
the last write. -/
def Obligations.AddSetsTheCarry : Prop :=
  EncodedAs 0x8004 0xF00F (fun w => .addReg (fieldX w) (fieldY w)) ∧
  ∀ (x y : Reg) (s : State), ∃ t, exec (.addReg x y) s = .next t ∧
    (x ≠ VF → (t.reg x).toNat = ((s.reg x).toNat + (s.reg y).toNat) % 256) ∧
    (t.reg VF).toNat = (if 255 < (s.reg x).toNat + (s.reg y).toNat then 1 else 0) ∧
    t.pc = s.pc + 2 ∧ RegsUnchangedBut [x, VF] s t ∧ UnchangedBut [.v, .pc] s t

/-- What SUB and SUBN have in common: `minuend - subtrahend` modulo 256, and `VF` the not-borrow, the last write. -/
def SubtractsWithNotBorrow (i : Reg → Reg → Instr) (minuend subtrahend : Reg → Reg → Reg) : Prop :=
  ∀ (x y : Reg) (s : State), ∃ t, exec (i x y) s = .next t ∧
    (x ≠ VF → (t.reg x).toNat = ((s.reg (minuend x y)).toNat + 256 - (s.reg (subtrahend x y)).toNat) % 256) ∧
    (t.reg VF).toNat = (if (s.reg (subtrahend x y)).toNat ≤ (s.reg (minuend x y)).toNat then 1 else 0) ∧
    t.pc = s.pc + 2 ∧ RegsUnchangedBut [x, VF] s t ∧ UnchangedBut [.v, .pc] s t

/-- 42_alu.md R157, R159: `Vx - Vy` and `Vy - Vx` with the not-borrow in `VF`. -/
def Obligations.SubtractionsSetNotBorrow : Prop :=
  EncodedAs 0x8005 0xF00F (fun w => .subReg (fieldX w) (fieldY w)) ∧
  EncodedAs 0x8007 0xF00F (fun w => .subn (fieldX w) (fieldY w)) ∧
  SubtractsWithNotBorrow .subReg (fun x _ => x) (fun _ y => y) ∧
  SubtractsWithNotBorrow .subn (fun _ y => y) (fun x _ => x)

/-- 42_alu.md R158, R160: the shifts of `Vy` by one into `Vx`; `VF` takes the bit shifted out, and with x = F ends as the
result. -/
def Obligations.ShiftsReadVyAndCaptureTheBit : Prop :=
  EncodedAs 0x8006 0xF00F (fun w => .shr (fieldX w) (fieldY w)) ∧
  EncodedAs 0x800E 0xF00F (fun w => .shl (fieldX w) (fieldY w)) ∧
  ∀ (x y : Reg) (s : State),
    (∃ t, exec (.shr x y) s = .next t ∧ (t.reg x).toNat = (s.reg y).toNat / 2 ∧
      (x ≠ VF → (t.reg VF).toNat = (s.reg y).toNat % 2) ∧
      t.pc = s.pc + 2 ∧ RegsUnchangedBut [x, VF] s t ∧ UnchangedBut [.v, .pc] s t) ∧
    (∃ t, exec (.shl x y) s = .next t ∧ (t.reg x).toNat = (s.reg y).toNat * 2 % 256 ∧
      (x ≠ VF → (t.reg VF).toNat = (s.reg y).toNat / 128) ∧
      t.pc = s.pc + 2 ∧ RegsUnchangedBut [x, VF] s t ∧ UnchangedBut [.v, .pc] s t)

/-- 42_alu.md R161: `Vx` takes the next byte of the `rand` port, masked by `kk`; the draw is used up. The byte is a free
value, held as an uninterpreted stream that a counter of the model indexes (log 3). -/
def Obligations.RandomByteIsMasked : Prop :=
  EncodedAs 0xC000 0xF000 (fun w => .rnd (fieldX w) (fieldKk w)) ∧
  ∀ (x : Reg) (kk : Byte) (s : State), ∃ (t : State) (r : Byte), exec (.rnd x kk) s = .next t ∧
    r = Config.rand s.draws ∧ t.draws = s.draws + 1 ∧ (∀ k < 8, (t.reg x).getLsbD k = (r.getLsbD k && kk.getLsbD k)) ∧
    t.pc = s.pc + 2 ∧ RegsUnchangedBut [x] s t ∧ UnchangedBut [.v, .pc, .draws] s t

/-! ### Index register and memory transfers (43_index_memory.md) -/

/-- 43_index_memory.md R180, R181, R182: the three instructions that set `I`; no V register changes, `VF` included. -/
def Obligations.IndexRegisterInstructions : Prop :=
  EncodedAs 0xA000 0xF000 (fun w => .ldI (fieldNnn w)) ∧
  EncodedAs 0xF01E 0xF0FF (fun w => .addI (fieldX w)) ∧
  EncodedAs 0xF029 0xF0FF (fun w => .ldF (fieldX w)) ∧
  ∀ (nnn : Addr) (x : Reg) (s : State),
    (∃ t, exec (.ldI nnn) s = .next t ∧ t.i.toNat = nnn.toNat ∧ t.pc = s.pc + 2 ∧ UnchangedBut [.i, .pc] s t) ∧
    (∃ t, exec (.addI x) s = .next t ∧ t.i.toNat = (s.i.toNat + (s.reg x).toNat) % 65536 ∧ t.pc = s.pc + 2 ∧
      UnchangedBut [.i, .pc] s t) ∧
    (∃ t, exec (.ldF x) s = .next t ∧ t.i.toNat = (s.reg x).toNat % 16 * 5 ∧ t.pc = s.pc + 2 ∧
      UnchangedBut [.i, .pc] s t)

/-- 43_index_memory.md R183: the three digits at `I`, `I + 1`, `I + 2` when each is writable, `I` unchanged; else the halt
at the lowest byte that is not, and nothing written. -/
def Obligations.StoreDecimalDigits : Prop :=
  EncodedAs 0xF033 0xF0FF (fun w => .ldB (fieldX w)) ∧
  ∀ (x : Reg) (s : State),
    ((∀ k < 3, Writable s (s.base + k)) → ∃ t, exec (.ldB x) s = .next t ∧
      (∀ k < 3, Dropped s (s.base + k) → t.byteAt (s.base + k) = s.byteAt (s.base + k)) ∧
      (¬ Dropped s s.base → (t.byteAt s.base).toNat = (s.reg x).toNat / 100) ∧
      (¬ Dropped s (s.base + 1) → (t.byteAt (s.base + 1)).toNat = (s.reg x).toNat / 10 % 10) ∧
      (¬ Dropped s (s.base + 2) → (t.byteAt (s.base + 2)).toNat = (s.reg x).toNat % 10) ∧
      (∀ a, a < s.base ∨ s.base + 3 ≤ a → t.byteAt a = s.byteAt a) ∧
      t.pc = s.pc + 2 ∧ UnchangedBut [.mem, .pc] s t) ∧
    (∀ k < 3, (∀ j < k, Writable s (s.base + j)) → ¬ Writable s (s.base + k) →
      ∃ t, exec (.ldB x) s = .next t ∧ HaltedBy (writeErrorKind (s.base + k)) (s.base + k) s t)

/-- 43_index_memory.md R184: V0 to Vx at `I` upward when each byte is writable, then `I + x + 1`; else the halt at the
lowest byte that is not, and nothing written. -/
def Obligations.StoreRegisterBlock : Prop :=
  EncodedAs 0xF055 0xF0FF (fun w => .storeRegs (fieldX w)) ∧
  ∀ (x : Reg) (s : State),
    ((∀ k ≤ x.val, Writable s (s.base + k)) → ∃ t, exec (.storeRegs x) s = .next t ∧
      (∀ r : Reg, r ≤ x → ¬ Dropped s (s.base + r.val) → t.byteAt (s.base + r.val) = s.reg r) ∧
      (∀ r : Reg, r ≤ x → Dropped s (s.base + r.val) → t.byteAt (s.base + r.val) = s.byteAt (s.base + r.val)) ∧
      (∀ a, a < s.base ∨ s.base + x.val < a → t.byteAt a = s.byteAt a) ∧
      t.i.toNat = (s.base + x.val + 1) % 65536 ∧ t.pc = s.pc + 2 ∧ UnchangedBut [.mem, .i, .pc] s t) ∧
    (∀ k ≤ x.val, (∀ j < k, Writable s (s.base + j)) → ¬ Writable s (s.base + k) →
      ∃ t, exec (.storeRegs x) s = .next t ∧ HaltedBy (writeErrorKind (s.base + k)) (s.base + k) s t)

/-- 43_index_memory.md R185: V0 to Vx from `I` upward when the block ends inside memory, then `I + x + 1`; else the halt
at the lowest address outside. -/
def Obligations.LoadRegisterBlock : Prop :=
  EncodedAs 0xF065 0xF0FF (fun w => .loadRegs (fieldX w)) ∧
  ∀ (x : Reg) (s : State),
    (s.base + x.val < 4096 → ∃ t, exec (.loadRegs x) s = .next t ∧
      (∀ r : Reg, r ≤ x → t.reg r = s.byteAt (s.base + r.val)) ∧ (∀ r : Reg, x < r → t.reg r = s.reg r) ∧
      t.i.toNat = (s.base + x.val + 1) % 65536 ∧ t.pc = s.pc + 2 ∧ UnchangedBut [.v, .i, .pc] s t) ∧
    (4096 ≤ s.base + x.val → ∃ t, exec (.loadRegs x) s = .next t ∧ HaltedBy .outOfBounds (max s.base 4096) s t)

/-- 43_index_memory.md R186: a store of V0 to Vx and, from the same `I` and undisturbed bytes, a load with the same x give
the registers back; each leaves `I` at `b + x + 1`. -/
def Obligations.StoreThenLoadRestoresRegisters : Prop :=
  ∀ (x : Reg) (s : State), (∀ k ≤ x.val, Writable s (s.base + k) ∧ ¬ Dropped s (s.base + k)) →
    ∃ t, exec (.storeRegs x) s = .next t ∧ t.i.toNat = s.base + x.val + 1 ∧
      ∀ t' : State, t'.i = s.i → (∀ k ≤ x.val, t'.byteAt (s.base + k) = t.byteAt (s.base + k)) →
        ∃ u, exec (.loadRegs x) t' = .next u ∧ u.i.toNat = s.base + x.val + 1 ∧ ∀ r : Reg, r ≤ x → u.reg r = s.reg r

/-! ### Display (44_display.md) -/

/-- 44_display.md R201: every pixel off, `DRAW` set, nothing else changed. -/
def Obligations.ClearTurnsEveryPixelOff : Prop :=
  EncodedAs 0x00E0 0xFFFF (fun _ => .cls) ∧
  ∀ s : State, ∃ t, exec .cls s = .next t ∧ (∀ p < 2048, t.disp.getLsbD p = false) ∧ t.draw = true ∧ t.pc = s.pc + 2 ∧
    UnchangedBut [.disp, .draw, .pc] s t

/-- 44_display.md R202: the loop over rows and columns is the XOR of the display with the clipped sprite, `VF` is the
collision, `DRAW` is set; when a row lies outside memory (clipped or not) the block halts at the lowest such address. -/
def Obligations.DrawXorsTheClippedSprite : Prop :=
  EncodedAs 0xD000 0xF000 (fun w => .drw (fieldX w) (fieldY w) (fieldN w)) ∧
  ∀ (x y : Reg) (n : Nat) (s : State),
    (n = 0 ∨ s.base + n ≤ 4096 → ∃ t, exec (.drw x y n) s = .next t ∧
      (∀ px < 64, ∀ py < 32, t.pixelAt px py = Bool.xor (s.pixelAt px py) (spriteCovers s x y n px py)) ∧
      (t.reg VF = 1 ↔ ∃ px < 64, ∃ py < 32, s.pixelAt px py = true ∧ spriteCovers s x y n px py = true) ∧
      (t.reg VF = 0 ∨ t.reg VF = 1) ∧ t.draw = true ∧ t.pc = s.pc + 2 ∧
      RegsUnchangedBut [VF] s t ∧ UnchangedBut [.disp, .draw, .v, .pc] s t) ∧
    (0 < n → 4096 < s.base + n → ∃ t, exec (.drw x y n) s = .next t ∧ HaltedBy .outOfBounds (max s.base 4096) s t)

/-- 44_display.md R203: after a draw that does not fault, `VF` is 1 exactly when some pixel went from on to off, and 0
otherwise; and no instruction but `Dxyn` reads the display: with another display in the state, the answer differs in the
display alone. -/
def Obligations.CollisionIsAPixelTurnedOff : Prop :=
  (∀ (x y : Reg) (n : Nat) (s t : State), exec (.drw x y n) s = .next t →
    (n = 0 ∨ s.base + n ≤ 4096) →
    (t.reg VF = 1 ↔ ∃ px < 64, ∃ py < 32, s.pixelAt px py = true ∧ t.pixelAt px py = false) ∧
    (t.reg VF = 0 ↔ ¬ ∃ px < 64, ∃ py < 32, s.pixelAt px py = true ∧ t.pixelAt px py = false)) ∧
  (∀ (i : Instr) (s t : State) (d : Display), (∀ x y n, i ≠ .drw x y n) → exec i s = .next t →
    ∃ u, exec i { s with disp := d } = .next u ∧ UnchangedBut [.disp] t u)

/-- 44_display.md R208: after a clear, a draw turns on exactly the visible pixels whose sprite bit is set, and leaves
`VF = 0`. -/
def Obligations.ClearThenDrawShowsTheSprite : Prop :=
  ∀ s : State, ∃ t, exec .cls s = .next t ∧ (∀ p < 2048, t.disp.getLsbD p = false) ∧
    ∀ (x y : Reg) (n : Nat) (t' : State), t'.disp = t.disp → (n = 0 ∨ t'.base + n ≤ 4096) →
      ∃ u, exec (.drw x y n) t' = .next u ∧ u.reg VF = 0 ∧
        ∀ px < 64, ∀ py < 32, u.pixelAt px py = spriteCovers t' x y n px py

/-- 44_display.md R209: two draws with the same `I`, bytes, `V[x]`, `V[y]` and display between them restore the display;
the second sets `VF` to 1 exactly when the sprite has a visible set bit on a pixel that was off before the first. -/
def Obligations.DrawingTwiceRestoresTheDisplay : Prop :=
  ∀ (x y : Reg) (n : Nat) (s : State), (n = 0 ∨ s.base + n ≤ 4096) → ∃ t, exec (.drw x y n) s = .next t ∧
    ∀ t' : State, t'.disp = t.disp → t'.i = s.i → (∀ a, t'.byteAt a = s.byteAt a) → t'.reg x = s.reg x →
      t'.reg y = s.reg y → t'.params = s.params →
      ∃ u, exec (.drw x y n) t' = .next u ∧ (∀ px < 64, ∀ py < 32, u.pixelAt px py = s.pixelAt px py) ∧
        (u.reg VF = 1 ↔ ∃ px < 64, ∃ py < 32, spriteCovers s x y n px py = true ∧ s.pixelAt px py = false)

/-! ### Keys and timers (45_input_timers.md) -/

/-- What `Ex9E` (wanted = true) and `ExA1` (wanted = false) do: skip when the key's state is the one wanted. -/
def SkipsOnKey (i : Reg → Instr) (wanted : Bool) : Prop :=
  ∀ (x : Reg) (s : State),
    (∀ down : Bool,
      ((s.reg x).toNat < 16 ∧ down = s.key.getLsbD (s.reg x).toNat) ∨
      (16 ≤ (s.reg x).toNat ∧ s.params.keyIndexPolicy = .notPressed ∧ down = false) ∨
      (16 ≤ (s.reg x).toNat ∧ s.params.keyIndexPolicy = .mod16 ∧ down = s.key.getLsbD ((s.reg x).toNat % 16)) →
      ∃ t, exec (i x) s = .next t ∧ UnchangedBut [.pc] s t ∧
        (down = wanted → t.pc = s.pc + 4) ∧ (down ≠ wanted → t.pc = s.pc + 2)) ∧
    (16 ≤ (s.reg x).toNat → s.params.keyIndexPolicy = .fault →
      ∃ t, exec (i x) s = .next t ∧ HaltedBy .keyIndex (s.reg x).toNat s t)

/-- 45_input_timers.md R220, R221, R222: the key test under each policy, and the two skips. -/
def Obligations.SkipsOnTheKeyTest : Prop :=
  EncodedAs 0xE09E 0xF0FF (fun w => .skp (fieldX w)) ∧ EncodedAs 0xE0A1 0xF0FF (fun w => .sknp (fieldX w)) ∧
  SkipsOnKey .skp true ∧ SkipsOnKey .sknp false

/-- 45_input_timers.md R223: with no release the step changes nothing at all; else `Vx` takes the lowest released key. -/
def Obligations.WaitForAKeyRelease : Prop :=
  EncodedAs 0xF00A 0xF0FF (fun w => .ldVxK (fieldX w)) ∧
  ∀ (x : Reg) (s : State),
    ((∀ k < 16, ¬ Released s k) → exec (.ldVxK x) s = .next s) ∧
    (∀ k < 16, Released s k → (∀ j < k, ¬ Released s j) → ∃ t, exec (.ldVxK x) s = .next t ∧ (t.reg x).toNat = k ∧
      t.pc = s.pc + 2 ∧ RegsUnchangedBut [x] s t ∧ UnchangedBut [.v, .pc] s t)

/-- 45_input_timers.md R224, R225, R226: the timer transfers (their directions are the spec's decision D15, log 12), and the
sound output that `Fx18` leaves: silent for 0, on for any value above. -/
def Obligations.TimerTransfers : Prop :=
  EncodedAs 0xF007 0xF0FF (fun w => .ldVxDt (fieldX w)) ∧
  EncodedAs 0xF015 0xF0FF (fun w => .ldDtVx (fieldX w)) ∧
  EncodedAs 0xF018 0xF0FF (fun w => .ldStVx (fieldX w)) ∧
  ∀ (x : Reg) (s : State),
    (∃ t, exec (.ldVxDt x) s = .next t ∧ t.reg x = s.dt ∧ t.pc = s.pc + 2 ∧ RegsUnchangedBut [x] s t ∧
      UnchangedBut [.v, .pc] s t) ∧
    (∃ t, exec (.ldDtVx x) s = .next t ∧ t.dt = s.reg x ∧ t.pc = s.pc + 2 ∧ UnchangedBut [.dt, .pc] s t) ∧
    (∃ t, exec (.ldStVx x) s = .next t ∧ t.st = s.reg x ∧ (t.soundOn = true ↔ 0 < (s.reg x).toNat) ∧ t.pc = s.pc + 2 ∧
      UnchangedBut [.st, .pc] s t)

/-! ### Host actions (45_input_timers.md, 44_display.md) -/

/-- 45_input_timers.md R230, R231: `tick()` counts both timers down, floor at 0, and changes nothing else; it is what the
host's tick does to a running block (a halted one is HaltedBlockIsFrozen's, log 6); in every state the sound is on exactly
while `ST > 0`. -/
def Obligations.TickCountsTheTimersDown : Prop :=
  (∀ s : State, s.tick.dt.toNat = s.dt.toNat - 1 ∧ s.tick.st.toNat = s.st.toNat - 1 ∧ UnchangedBut [.dt, .st] s s.tick) ∧
  (∀ s : State, s.halt = none → act .tick s = .next s.tick) ∧
  (∀ s : State, s.soundOn = true ↔ 0 < s.st.toNat)

/-- 45_input_timers.md R232, 10_state.md R34, R35: `keyEdit(v)` keeps the latch before it in `KEYP` and changes nothing else;
it is what the host's edit does to a running block (a halted one is HaltedBlockIsFrozen's, log 6); no other action, neither
a step nor a tick nor a repaint query, changes either latch. -/
def Obligations.OnlyAnEditChangesTheLatches : Prop :=
  (∀ (v : Word) (s : State), (s.keyEdit v).keyp = s.key ∧ (s.keyEdit v).key = v ∧
    UnchangedBut [.keyp, .key] s (s.keyEdit v)) ∧
  (∀ (v : Word) (s : State), s.halt = none → act (.keyEdit v) s = .next (s.keyEdit v)) ∧
  (∀ (a : Action) (s t : State), (∀ v, a ≠ .keyEdit v) → act a s = .next t → t.key = s.key ∧ t.keyp = s.keyp) ∧
  (∀ s t : State, step s = .next t → t.key = s.key ∧ t.keyp = s.keyp)

/-- 44_display.md R206: the repaint query answers `DRAW` and clears it. -/
def Obligations.RepaintQueryReadsAndClears : Prop :=
  ∀ s : State, s.halt = none → (s.repaintQuery).1 = s.draw ∧
    ∃ t, act .repaintQuery s = .next t ∧ t = (s.repaintQuery).2 ∧ t.draw = false ∧ UnchangedBut [.draw] s t

/-- 45_input_timers.md R233: a frame that ends with the block running is its steps and latch edits, then one repaint query,
then one tick. -/
def Obligations.FrameEndsWithQueryThenTick : Prop :=
  ∀ (edits : List (List Word)) (s t : State), runActions (frameActions edits) s = .next t → t.halt = none →
    ∃ u, runActions (edits.flatMap (fun vs => vs.map Action.keyEdit ++ [Action.step])) s = .next u ∧ u.halt = none ∧
      t = (u.repaintQuery).2.tick

/-- 70_reset_and_hazards.md R281: a release followed by a further edit is hidden from `Fx0A` when the further edit repeats
the latch: the instruction waits. A press and a release with no step between them are seen by `Fx0A` as the release. -/
def Obligations.LatchEditsBetweenSteps : Prop :=
  ∀ (s : State) (x : Reg) (v w : Word),
    exec (.ldVxK x) (((s.keyEdit v).keyEdit w).keyEdit w) = .next (((s.keyEdit v).keyEdit w).keyEdit w) ∧
    (∀ k < 16, v.getLsbD k = true → w.getLsbD k = false → (∀ j < k, v.getLsbD j = true → w.getLsbD j = true) →
      ∃ t, exec (.ldVxK x) ((s.keyEdit v).keyEdit w) = .next t ∧ (t.reg x).toNat = k)

/-! ### Reset and the start of a run (10_state.md R42, 70_reset_and_hazards.md) -/

/-- 10_state.md R42, 70_reset_and_hazards.md R270, R272: for every font, `initFill`, `initStack`, parameters and image of at
most 3584 bytes, the state a session starts from; for a longer image, `LoadError` and no state. Three clauses are the
model's own: the canonical form of memory (log 1), the draw counter at 0 (log 3), the parameters held in the state
(log 4). -/
def Obligations.ConstructionSetsEveryField : Prop :=
  ∀ (p : Params) (font initFill : Nat → Byte) (initStack : Vector Word 16) (image : List Byte),
    (image.length ≤ 3584 → ∃ t, construct p font initFill initStack image = .next t ∧
      (∀ a < 80, t.byteAt a = font a) ∧
      (∀ j (h : j < image.length), t.byteAt (512 + j) = image[j]) ∧
      (∀ a, 80 ≤ a → a < 4096 → (a < 512 ∨ 512 + image.length ≤ a) → t.byteAt a = initFill a) ∧
      (∀ r : Reg, t.reg r = 0) ∧ t.pc = 512 ∧ t.i = 0 ∧ t.sp = 0 ∧ t.stack = initStack ∧ t.dt = 0 ∧ t.st = 0 ∧
      t.key = 0 ∧ t.keyp = 0 ∧ (∀ q < 2048, t.disp.getLsbD q = false) ∧ t.draw = false ∧ t.halt = none ∧ t.diag = [] ∧
      t.draws = 0 ∧ t.params = p ∧ t.mem.wf) ∧
    (3584 < image.length → construct p font initFill initStack image = .fault .loadError)

/-- The reset state is the one `construct` builds from the default parameters, the default font and the empty image, with
`initFill` and `initStack` zero: the model's choice (log 1, log 2, log 10). -/
def Obligations.ResetIsAConstruction : Prop :=
  construct defaultParams (fun a => defaultFont.getD a 0) (fun _ => 0) (Vector.replicate 16 0) [] = .next State.reset

/-- The word placed where the step fetches is the word it fetches (log 7): from the reset state, and from every running
state whose `PC` is at most 4094. -/
def Obligations.PlacedWordIsFetched : Prop :=
  ∀ (s : State) (w : Word), s.halt = none → s.pc.toNat + 1 < 4096 → Fetches (s.withFetchWord 16 w.toNat) w

/-- 20_memory.md R60: the canonical form, which is the model's own (log 1), decides equality: two canonical memories that
read alike at the 4096 addresses are the same data. -/
def Obligations.CanonicalMemoriesThatReadAlikeAreEqual : Prop :=
  ∀ m n : Memory, m.wf → n.wf → (∀ a < 4096, m.read a = n.read a) → m = n

/-! ### Who reads the latches (10_state.md) -/

/-- 10_state.md R34, R35: no instruction but `Ex9E`, `ExA1` and `Fx0A` reads `KEY`, and none but `Fx0A` reads `KEYP`: with
other latches in the state, the answer differs in those latches alone. -/
def Obligations.OnlyKeyInstructionsReadTheLatches : Prop :=
  (∀ (i : Instr) (s t : State) (k p : Word), (∀ x, i ≠ .skp x ∧ i ≠ .sknp x ∧ i ≠ .ldVxK x) → exec i s = .next t →
    ∃ u, exec i { s with key := k, keyp := p } = .next u ∧ UnchangedBut [.key, .keyp] t u) ∧
  (∀ (i : Instr) (s t : State) (p : Word), (∀ x, i ≠ .ldVxK x) → exec i s = .next t →
    ∃ u, exec i { s with keyp := p } = .next u ∧ UnchangedBut [.keyp] t u)
end

