-- ==== Sys2Proof/Laws/Decode.lean ====
section
/-! SUPPORT. The fields of a word: which mask keeps which field, and what the fields of an encoded word are. -/

namespace Sys2Proof

/-! ### A field under a mask -/

theorem fieldN0_and_F000 (w : Word) : fieldN0 (w &&& 0xF000) = fieldN0 w := by
  refine congrArg BitVec.toNat (BitVec.eq_of_getLsbD_eq fun i hi => ?_)
  interval_cases i <;> simp

theorem fieldN0_and_F00F (w : Word) : fieldN0 (w &&& 0xF00F) = fieldN0 w := by
  refine congrArg BitVec.toNat (BitVec.eq_of_getLsbD_eq fun i hi => ?_)
  interval_cases i <;> simp

theorem fieldN0_and_F0FF (w : Word) : fieldN0 (w &&& 0xF0FF) = fieldN0 w := by
  refine congrArg BitVec.toNat (BitVec.eq_of_getLsbD_eq fun i hi => ?_)
  interval_cases i <;> simp

theorem fieldN_and_F00F (w : Word) : fieldN (w &&& 0xF00F) = fieldN w := by
  refine congrArg BitVec.toNat (BitVec.eq_of_getLsbD_eq fun i hi => ?_)
  interval_cases i <;> simp

theorem fieldKk_and_F0FF (w : Word) : fieldKk (w &&& 0xF0FF) = fieldKk w := by
  refine BitVec.eq_of_getLsbD_eq fun i hi => ?_
  interval_cases i <;> simp [fieldKk]

/-! ### The fields of an encoded word -/

theorem getLsbD_encodeXkk (n0 : BitVec 4) (x : Reg) (kk : Byte) (i : Nat) :
    (encodeXkk n0 x kk).getLsbD i =
      if i < 8 then kk.getLsbD i else if i - 8 < 4 then (regBits x).getLsbD (i - 8) else n0.getLsbD (i - 8 - 4) := by
  show (n0 ++ regBits x ++ kk : BitVec (4 + 4 + 8)).getLsbD i = _
  rw [BitVec.getLsbD_append, BitVec.getLsbD_append]

theorem getLsbD_encodeXyn (n0 : BitVec 4) (x y : Reg) (n : BitVec 4) (i : Nat) :
    (encodeXyn n0 x y n).getLsbD i =
      if i < 4 then n.getLsbD i else if i - 4 < 4 then (regBits y).getLsbD (i - 4)
      else if i - 4 - 4 < 4 then (regBits x).getLsbD (i - 4 - 4) else n0.getLsbD (i - 4 - 4 - 4) := by
  show (n0 ++ regBits x ++ regBits y ++ n : BitVec (4 + 4 + 4 + 4)).getLsbD i = _
  rw [BitVec.getLsbD_append, BitVec.getLsbD_append, BitVec.getLsbD_append]

theorem getLsbD_encodeNnn (n0 : BitVec 4) (nnn : Addr) (i : Nat) :
    (encodeNnn n0 nnn).getLsbD i = if i < 12 then nnn.getLsbD i else n0.getLsbD (i - 12) := by
  show (n0 ++ nnn : BitVec (4 + 12)).getLsbD i = _
  rw [BitVec.getLsbD_append]

theorem regBits_toNat (x : Reg) : (regBits x).toNat = x.val := by
  have := x.isLt
  simp only [regBits, BitVec.toNat_ofNat]
  omega

@[simp] theorem fieldN0_encodeXkk (n0 : BitVec 4) (x : Reg) (kk : Byte) : fieldN0 (encodeXkk n0 x kk) = (n0).toNat := by
  refine congrArg BitVec.toNat (BitVec.eq_of_getLsbD_eq fun i hi => ?_)
  interval_cases i <;> simp only [BitVec.getLsbD_extractLsb', getLsbD_encodeXkk] <;> simp

@[simp] theorem fieldN0_encodeXyn (n0 : BitVec 4) (x y : Reg) (n : BitVec 4) : fieldN0 (encodeXyn n0 x y n) = (n0).toNat := by
  refine congrArg BitVec.toNat (BitVec.eq_of_getLsbD_eq fun i hi => ?_)
  interval_cases i <;> simp only [BitVec.getLsbD_extractLsb', getLsbD_encodeXyn] <;> simp

@[simp] theorem fieldN0_encodeNnn (n0 : BitVec 4) (nnn : Addr) : fieldN0 (encodeNnn n0 nnn) = (n0).toNat := by
  refine congrArg BitVec.toNat (BitVec.eq_of_getLsbD_eq fun i hi => ?_)
  interval_cases i <;> simp only [BitVec.getLsbD_extractLsb', getLsbD_encodeNnn] <;> simp

@[simp] theorem fieldX_encodeXkk (n0 : BitVec 4) (x : Reg) (kk : Byte) : fieldX (encodeXkk n0 x kk) = x := by
  have h : (encodeXkk n0 x kk).extractLsb' 8 4 = regBits x := by
    refine BitVec.eq_of_getLsbD_eq fun i hi => ?_
    interval_cases i <;> simp only [BitVec.getLsbD_extractLsb', getLsbD_encodeXkk] <;> simp
  exact Fin.ext (by simp [fieldX, h, regBits_toNat])

@[simp] theorem fieldX_encodeXyn (n0 : BitVec 4) (x y : Reg) (n : BitVec 4) : fieldX (encodeXyn n0 x y n) = x := by
  have h : (encodeXyn n0 x y n).extractLsb' 8 4 = regBits x := by
    refine BitVec.eq_of_getLsbD_eq fun i hi => ?_
    interval_cases i <;> simp only [BitVec.getLsbD_extractLsb', getLsbD_encodeXyn] <;> simp
  exact Fin.ext (by simp [fieldX, h, regBits_toNat])

@[simp] theorem fieldY_encodeXyn (n0 : BitVec 4) (x y : Reg) (n : BitVec 4) : fieldY (encodeXyn n0 x y n) = y := by
  have h : (encodeXyn n0 x y n).extractLsb' 4 4 = regBits y := by
    refine BitVec.eq_of_getLsbD_eq fun i hi => ?_
    interval_cases i <;> simp only [BitVec.getLsbD_extractLsb', getLsbD_encodeXyn] <;> simp
  exact Fin.ext (by simp [fieldY, h, regBits_toNat])

@[simp] theorem fieldN_encodeXyn (n0 : BitVec 4) (x y : Reg) (n : BitVec 4) : fieldN (encodeXyn n0 x y n) = (n).toNat := by
  refine congrArg BitVec.toNat (BitVec.eq_of_getLsbD_eq fun i hi => ?_)
  interval_cases i <;> simp only [BitVec.getLsbD_extractLsb', getLsbD_encodeXyn] <;> simp

@[simp] theorem fieldKk_encodeXkk (n0 : BitVec 4) (x : Reg) (kk : Byte) : fieldKk (encodeXkk n0 x kk) = kk := by
  refine BitVec.eq_of_getLsbD_eq fun i hi => ?_
  interval_cases i <;> simp only [fieldKk, BitVec.getLsbD_extractLsb', getLsbD_encodeXkk] <;> simp

@[simp] theorem fieldNnn_encodeNnn (n0 : BitVec 4) (nnn : Addr) : fieldNnn (encodeNnn n0 nnn) = nnn := by
  refine BitVec.eq_of_getLsbD_eq fun i hi => ?_
  interval_cases i <;> simp only [fieldNnn, BitVec.getLsbD_extractLsb', getLsbD_encodeNnn] <;> simp

end Sys2Proof
end

