-- ==== Sys2Proof/Laws/Memory.lean ====
section
/-! SUPPORT. The laws of memory: what a read gives after a write, the canonical form every operation keeps, and the
contents of a memory built from a function. -/

namespace Sys2Proof.Machine

namespace Memory

@[simp] theorem read_nil (a : Nat) : read [] a = unlisted a := rfl

theorem read_cons (c : Host.Cell) (m : Memory) (a : Nat) :
    read (c :: m) a = if a = c.1 then c.2 else read m a := rfl

/-- A read finds what was inserted, in any list. -/
theorem read_insert_same (m : Memory) (a : Nat) (v : Byte) : read (insert a v m) a = v := by
  induction m with
  | nil => simp [insert, read_cons]
  | cons c m ih =>
    obtain ⟨b, u⟩ := c
    simp only [insert]
    split
    · simp [read_cons]
    · split
      · simp [read_cons]
      · rename_i h
        simp [read_cons, h, ih]

/-- An insertion leaves every other address alone. -/
theorem read_insert_other (m : Memory) {a b : Nat} (v : Byte) (h : b ≠ a) : read (insert a v m) b = read m b := by
  induction m with
  | nil => simp [insert, read_cons, h]
  | cons c m ih =>
    obtain ⟨d, u⟩ := c
    simp only [insert]
    split
    · simp [read_cons, h]
    · split
      · rename_i _ e
        subst e
        simp [read_cons, h]
      · simp [read_cons, ih]

/-- An erased address reads as an unlisted one. -/
theorem read_erase_same (m : Memory) (a : Nat) : read (erase a m) a = unlisted a := by
  induction m with
  | nil => rfl
  | cons c m ih =>
    by_cases h : c.1 = a
    · simpa [erase, h] using ih
    · have e : erase a (c :: m) = c :: erase a m := by simp [erase, h]
      rw [e, read_cons, if_neg (Ne.symm h), ih]

/-- An erasure leaves every other address alone. -/
theorem read_erase_other (m : Memory) {a b : Nat} (h : b ≠ a) : read (erase a m) b = read m b := by
  induction m with
  | nil => rfl
  | cons c m ih =>
    by_cases hc : c.1 = a
    · have e : erase a (c :: m) = erase a m := by simp [erase, hc]
      rw [e, ih, read_cons, if_neg (by omega)]
    · have e : erase a (c :: m) = c :: erase a m := by simp [erase, hc]
      rw [e, read_cons, read_cons, ih]

/-- A write inside memory is read back. -/
theorem read_write_same (m : Memory) {a : Nat} (v : Byte) (h : a < 4096) : read (write m a v) a = v := by
  unfold write
  rw [if_pos h]
  split
  · rename_i e
    rw [e, read_erase_same]
  · exact read_insert_same m a v

/-- A write leaves every other address alone. -/
theorem read_write_other (m : Memory) {a b : Nat} (v : Byte) (h : b ≠ a) : read (write m a v) b = read m b := by
  unfold write
  split
  · split
    · exact read_erase_other m h
    · exact read_insert_other m v h
  · rfl

/-- What a read gives after a write, in one equation. -/
theorem read_write (m : Memory) (a b : Nat) (v : Byte) :
    read (write m a v) b = if b = a ∧ a < 4096 then v else read m b := by
  by_cases h : b = a
  · subst h
    by_cases hb : b < 4096
    · simp [read_write_same m v hb, hb]
    · simp [write, hb]
  · simp [read_write_other m v h, h]

/-- The entries of a memory after an insertion. -/
theorem mem_insert {m : Memory} {a : Nat} {v : Byte} {c : Host.Cell} (h : c ∈ insert a v m) : c = (a, v) ∨ c ∈ m := by
  induction m with
  | nil => simpa [insert] using h
  | cons d m ih =>
    obtain ⟨b, u⟩ := d
    simp only [insert] at h
    split at h
    · simpa using h
    · split at h
      · rcases List.mem_cons.1 h with e | e
        · exact .inl e
        · exact .inr (List.mem_cons_of_mem _ e)
      · rcases List.mem_cons.1 h with e | e
        · exact .inr (by simp [e])
        · rcases ih e with e | e
          · exact .inl e
          · exact .inr (List.mem_cons_of_mem _ e)

/-- An insertion keeps the addresses rising. -/
theorem pairwise_insert {m : Memory} (a : Nat) (v : Byte) (h : m.Pairwise (fun c d => c.1 < d.1)) :
    (insert a v m).Pairwise (fun c d => c.1 < d.1) := by
  induction m with
  | nil => simp [insert]
  | cons d m ih =>
    obtain ⟨b, u⟩ := d
    obtain ⟨hd, hm⟩ := List.pairwise_cons.1 h
    simp only [insert]
    split
    · rename_i hab
      refine List.pairwise_cons.2 ⟨?_, h⟩
      intro c hc
      rcases List.mem_cons.1 hc with e | e
      · simpa [e] using hab
      · exact Nat.lt_trans hab (hd c e)
    · split
      · rename_i _ e
        subst e
        exact List.pairwise_cons.2 ⟨hd, hm⟩
      · refine List.pairwise_cons.2 ⟨?_, ih hm⟩
        intro c hc
        rcases mem_insert hc with e | e
        · simp only [e]
          omega
        · exact hd c e

/-- Every write keeps the canonical form. -/
theorem write_wf {m : Memory} (a : Nat) (v : Byte) (h : m.wf) : (write m a v).wf := by
  unfold write
  split
  · rename_i ha
    split
    · exact ⟨h.1.filter _, fun c hc => h.2 c (List.mem_of_mem_filter hc)⟩
    · rename_i hv
      refine ⟨pairwise_insert a v h.1, fun c hc => ?_⟩
      rcases mem_insert hc with e | e
      · subst e
        exact ⟨ha, hv⟩
      · exact h.2 c e
  · exact h

/-- A memory with rising addresses, all above `a`, does not list `a`. -/
theorem read_of_lt {m : Memory} {a : Nat} (h : ∀ c ∈ m, a < c.1) : read m a = unlisted a := by
  induction m with
  | nil => rfl
  | cons c m ih =>
    have hc := h c (by simp)
    rw [read_cons, if_neg (by omega), ih (fun d hd => h d (by simp [hd]))]

/-- The memory built from a function lists only addresses that the range it was built from holds. -/
theorem mem_listing {f : Nat → Byte} {as : List Nat} {c : Host.Cell}
    (h : c ∈ as.filterMap (fun a => if f a = unlisted a then none else some (a, f a))) :
    c.1 ∈ as ∧ c.2 = f c.1 ∧ f c.1 ≠ unlisted c.1 := by
  obtain ⟨a, ha, e⟩ := List.mem_filterMap.1 h
  split at e
  · exact absurd e (by simp)
  · rename_i hne
    cases e
    exact ⟨ha, rfl, hne⟩

theorem pairwise_listing {f : Nat → Byte} {as : List Nat} (h : as.Pairwise (· < ·)) :
    (as.filterMap (fun a => if f a = unlisted a then none else some (a, f a))).Pairwise
      (fun (c d : Host.Cell) => c.1 < d.1) := by
  refine List.Pairwise.filterMap _ ?_ h
  intro a b hab c hc d hd
  split at hc
  · exact absurd hc (by simp)
  · split at hd
    · exact absurd hd (by simp)
    · cases hc
      cases hd
      exact hab

theorem read_listing {f : Nat → Byte} {as : List Nat} (h : as.Pairwise (· < ·)) {a : Nat} (ha : a ∈ as) :
    read (as.filterMap (fun a => if f a = unlisted a then none else some (a, f a))) a = f a := by
  induction as with
  | nil => simp at ha
  | cons b bs ih =>
    obtain ⟨hb, hbs⟩ := List.pairwise_cons.1 h
    rcases List.mem_cons.1 ha with e | e
    · subst e
      by_cases hf : f a = unlisted a
      · rw [List.filterMap_cons_none (by simp [hf]), hf]
        exact read_of_lt (fun c hc => hb _ (mem_listing hc).1)
      · rw [List.filterMap_cons_some (b := (a, f a)) (by simp [hf]), read_cons, if_pos rfl]
    · by_cases hf : f b = unlisted b
      · rw [List.filterMap_cons_none (by simp [hf])]
        exact ih hbs e
      · have hne : a ≠ b := by
          have := hb a e
          omega
        rw [List.filterMap_cons_some (b := (b, f b)) (by simp [hf]), read_cons, if_neg hne]
        exact ih hbs e

/-- The memory built from a function reads as the function, at every address. -/
theorem read_ofContents (f : Nat → Byte) {a : Nat} (h : a < 4096) : read (ofContents f) a = f a :=
  read_listing List.pairwise_lt_range (List.mem_range.2 h)

/-- The memory built from a function is in canonical form. -/
theorem ofContents_wf (f : Nat → Byte) : (ofContents f).wf := by
  refine ⟨pairwise_listing List.pairwise_lt_range, fun c hc => ?_⟩
  obtain ⟨h1, h2, h3⟩ := mem_listing hc
  exact ⟨List.mem_range.1 h1, by rw [h2]; exact h3⟩

end Memory

end Sys2Proof.Machine
end

