-- ==== Sys2Proof/Laws/State.lean ====
section
/-! SUPPORT. One lemma per field per update of the state, each true by rfl, so that no later proof unfolds a record
update; and the accessors `reg`, `slot`, `byteAt`, `base` after each update that leaves their field alone. -/

namespace Sys2Proof.Machine

section Updates

variable (s : State)

/-! #### `setReg` -/

@[simp] theorem State.setReg_mem (x : Reg) (b : Byte) : (s.setReg x b).mem = s.mem := rfl
@[simp] theorem State.setReg_v (x : Reg) (b : Byte) : (s.setReg x b).v = s.v.set x.val b := rfl
@[simp] theorem State.setReg_i (x : Reg) (b : Byte) : (s.setReg x b).i = s.i := rfl
@[simp] theorem State.setReg_pc (x : Reg) (b : Byte) : (s.setReg x b).pc = s.pc := rfl
@[simp] theorem State.setReg_sp (x : Reg) (b : Byte) : (s.setReg x b).sp = s.sp := rfl
@[simp] theorem State.setReg_stack (x : Reg) (b : Byte) : (s.setReg x b).stack = s.stack := rfl
@[simp] theorem State.setReg_dt (x : Reg) (b : Byte) : (s.setReg x b).dt = s.dt := rfl
@[simp] theorem State.setReg_st (x : Reg) (b : Byte) : (s.setReg x b).st = s.st := rfl
@[simp] theorem State.setReg_key (x : Reg) (b : Byte) : (s.setReg x b).key = s.key := rfl
@[simp] theorem State.setReg_keyp (x : Reg) (b : Byte) : (s.setReg x b).keyp = s.keyp := rfl
@[simp] theorem State.setReg_disp (x : Reg) (b : Byte) : (s.setReg x b).disp = s.disp := rfl
@[simp] theorem State.setReg_draw (x : Reg) (b : Byte) : (s.setReg x b).draw = s.draw := rfl
@[simp] theorem State.setReg_halt (x : Reg) (b : Byte) : (s.setReg x b).halt = s.halt := rfl
@[simp] theorem State.setReg_diag (x : Reg) (b : Byte) : (s.setReg x b).diag = s.diag := rfl
@[simp] theorem State.setReg_draws (x : Reg) (b : Byte) : (s.setReg x b).draws = s.draws := rfl
@[simp] theorem State.setReg_params (x : Reg) (b : Byte) : (s.setReg x b).params = s.params := rfl
@[simp] theorem State.setReg_slot (x : Reg) (b : Byte) (j : Fin 16) : (s.setReg x b).slot j = s.slot j := rfl
@[simp] theorem State.setReg_byteAt (x : Reg) (b : Byte) (k : Nat) : (s.setReg x b).byteAt k = s.byteAt k := rfl
@[simp] theorem State.setReg_base (x : Reg) (b : Byte) : (s.setReg x b).base = s.base := rfl

/-! #### `setRegs` -/

@[simp] theorem State.setRegs_mem (bs : List Byte) : (s.setRegs bs).mem = s.mem := rfl
@[simp] theorem State.setRegs_v (bs : List Byte) : (s.setRegs bs).v = writeRegsFrom 0 bs s.v := rfl
@[simp] theorem State.setRegs_i (bs : List Byte) : (s.setRegs bs).i = s.i := rfl
@[simp] theorem State.setRegs_pc (bs : List Byte) : (s.setRegs bs).pc = s.pc := rfl
@[simp] theorem State.setRegs_sp (bs : List Byte) : (s.setRegs bs).sp = s.sp := rfl
@[simp] theorem State.setRegs_stack (bs : List Byte) : (s.setRegs bs).stack = s.stack := rfl
@[simp] theorem State.setRegs_dt (bs : List Byte) : (s.setRegs bs).dt = s.dt := rfl
@[simp] theorem State.setRegs_st (bs : List Byte) : (s.setRegs bs).st = s.st := rfl
@[simp] theorem State.setRegs_key (bs : List Byte) : (s.setRegs bs).key = s.key := rfl
@[simp] theorem State.setRegs_keyp (bs : List Byte) : (s.setRegs bs).keyp = s.keyp := rfl
@[simp] theorem State.setRegs_disp (bs : List Byte) : (s.setRegs bs).disp = s.disp := rfl
@[simp] theorem State.setRegs_draw (bs : List Byte) : (s.setRegs bs).draw = s.draw := rfl
@[simp] theorem State.setRegs_halt (bs : List Byte) : (s.setRegs bs).halt = s.halt := rfl
@[simp] theorem State.setRegs_diag (bs : List Byte) : (s.setRegs bs).diag = s.diag := rfl
@[simp] theorem State.setRegs_draws (bs : List Byte) : (s.setRegs bs).draws = s.draws := rfl
@[simp] theorem State.setRegs_params (bs : List Byte) : (s.setRegs bs).params = s.params := rfl
@[simp] theorem State.setRegs_slot (bs : List Byte) (j : Fin 16) : (s.setRegs bs).slot j = s.slot j := rfl
@[simp] theorem State.setRegs_byteAt (bs : List Byte) (k : Nat) : (s.setRegs bs).byteAt k = s.byteAt k := rfl
@[simp] theorem State.setRegs_base (bs : List Byte) : (s.setRegs bs).base = s.base := rfl

/-! #### `setI` -/

@[simp] theorem State.setI_mem (w : Word) : (s.setI w).mem = s.mem := rfl
@[simp] theorem State.setI_v (w : Word) : (s.setI w).v = s.v := rfl
@[simp] theorem State.setI_i (w : Word) : (s.setI w).i = w := rfl
@[simp] theorem State.setI_pc (w : Word) : (s.setI w).pc = s.pc := rfl
@[simp] theorem State.setI_sp (w : Word) : (s.setI w).sp = s.sp := rfl
@[simp] theorem State.setI_stack (w : Word) : (s.setI w).stack = s.stack := rfl
@[simp] theorem State.setI_dt (w : Word) : (s.setI w).dt = s.dt := rfl
@[simp] theorem State.setI_st (w : Word) : (s.setI w).st = s.st := rfl
@[simp] theorem State.setI_key (w : Word) : (s.setI w).key = s.key := rfl
@[simp] theorem State.setI_keyp (w : Word) : (s.setI w).keyp = s.keyp := rfl
@[simp] theorem State.setI_disp (w : Word) : (s.setI w).disp = s.disp := rfl
@[simp] theorem State.setI_draw (w : Word) : (s.setI w).draw = s.draw := rfl
@[simp] theorem State.setI_halt (w : Word) : (s.setI w).halt = s.halt := rfl
@[simp] theorem State.setI_diag (w : Word) : (s.setI w).diag = s.diag := rfl
@[simp] theorem State.setI_draws (w : Word) : (s.setI w).draws = s.draws := rfl
@[simp] theorem State.setI_params (w : Word) : (s.setI w).params = s.params := rfl
@[simp] theorem State.setI_reg (w : Word) (r : Reg) : (s.setI w).reg r = s.reg r := rfl
@[simp] theorem State.setI_slot (w : Word) (j : Fin 16) : (s.setI w).slot j = s.slot j := rfl
@[simp] theorem State.setI_byteAt (w : Word) (k : Nat) : (s.setI w).byteAt k = s.byteAt k := rfl

/-! #### `setPc` -/

@[simp] theorem State.setPc_mem (w : Word) : (s.setPc w).mem = s.mem := rfl
@[simp] theorem State.setPc_v (w : Word) : (s.setPc w).v = s.v := rfl
@[simp] theorem State.setPc_i (w : Word) : (s.setPc w).i = s.i := rfl
@[simp] theorem State.setPc_pc (w : Word) : (s.setPc w).pc = w := rfl
@[simp] theorem State.setPc_sp (w : Word) : (s.setPc w).sp = s.sp := rfl
@[simp] theorem State.setPc_stack (w : Word) : (s.setPc w).stack = s.stack := rfl
@[simp] theorem State.setPc_dt (w : Word) : (s.setPc w).dt = s.dt := rfl
@[simp] theorem State.setPc_st (w : Word) : (s.setPc w).st = s.st := rfl
@[simp] theorem State.setPc_key (w : Word) : (s.setPc w).key = s.key := rfl
@[simp] theorem State.setPc_keyp (w : Word) : (s.setPc w).keyp = s.keyp := rfl
@[simp] theorem State.setPc_disp (w : Word) : (s.setPc w).disp = s.disp := rfl
@[simp] theorem State.setPc_draw (w : Word) : (s.setPc w).draw = s.draw := rfl
@[simp] theorem State.setPc_halt (w : Word) : (s.setPc w).halt = s.halt := rfl
@[simp] theorem State.setPc_diag (w : Word) : (s.setPc w).diag = s.diag := rfl
@[simp] theorem State.setPc_draws (w : Word) : (s.setPc w).draws = s.draws := rfl
@[simp] theorem State.setPc_params (w : Word) : (s.setPc w).params = s.params := rfl
@[simp] theorem State.setPc_reg (w : Word) (r : Reg) : (s.setPc w).reg r = s.reg r := rfl
@[simp] theorem State.setPc_slot (w : Word) (j : Fin 16) : (s.setPc w).slot j = s.slot j := rfl
@[simp] theorem State.setPc_byteAt (w : Word) (k : Nat) : (s.setPc w).byteAt k = s.byteAt k := rfl
@[simp] theorem State.setPc_base (w : Word) : (s.setPc w).base = s.base := rfl

/-! #### `advance` -/

@[simp] theorem State.advance_mem : s.advance.mem = s.mem := rfl
@[simp] theorem State.advance_v : s.advance.v = s.v := rfl
@[simp] theorem State.advance_i : s.advance.i = s.i := rfl
@[simp] theorem State.advance_pc : s.advance.pc = s.pc + 2 := rfl
@[simp] theorem State.advance_sp : s.advance.sp = s.sp := rfl
@[simp] theorem State.advance_stack : s.advance.stack = s.stack := rfl
@[simp] theorem State.advance_dt : s.advance.dt = s.dt := rfl
@[simp] theorem State.advance_st : s.advance.st = s.st := rfl
@[simp] theorem State.advance_key : s.advance.key = s.key := rfl
@[simp] theorem State.advance_keyp : s.advance.keyp = s.keyp := rfl
@[simp] theorem State.advance_disp : s.advance.disp = s.disp := rfl
@[simp] theorem State.advance_draw : s.advance.draw = s.draw := rfl
@[simp] theorem State.advance_halt : s.advance.halt = s.halt := rfl
@[simp] theorem State.advance_diag : s.advance.diag = s.diag := rfl
@[simp] theorem State.advance_draws : s.advance.draws = s.draws := rfl
@[simp] theorem State.advance_params : s.advance.params = s.params := rfl
@[simp] theorem State.advance_reg (r : Reg) : s.advance.reg r = s.reg r := rfl
@[simp] theorem State.advance_slot (j : Fin 16) : s.advance.slot j = s.slot j := rfl
@[simp] theorem State.advance_byteAt (k : Nat) : s.advance.byteAt k = s.byteAt k := rfl
@[simp] theorem State.advance_base : s.advance.base = s.base := rfl

/-! #### `skipIf` -/

@[simp] theorem State.skipIf_mem (c : Bool) : (s.skipIf c).mem = s.mem := rfl
@[simp] theorem State.skipIf_v (c : Bool) : (s.skipIf c).v = s.v := rfl
@[simp] theorem State.skipIf_i (c : Bool) : (s.skipIf c).i = s.i := rfl
@[simp] theorem State.skipIf_pc (c : Bool) : (s.skipIf c).pc = if c then s.pc + 4 else s.pc + 2 := rfl
@[simp] theorem State.skipIf_sp (c : Bool) : (s.skipIf c).sp = s.sp := rfl
@[simp] theorem State.skipIf_stack (c : Bool) : (s.skipIf c).stack = s.stack := rfl
@[simp] theorem State.skipIf_dt (c : Bool) : (s.skipIf c).dt = s.dt := rfl
@[simp] theorem State.skipIf_st (c : Bool) : (s.skipIf c).st = s.st := rfl
@[simp] theorem State.skipIf_key (c : Bool) : (s.skipIf c).key = s.key := rfl
@[simp] theorem State.skipIf_keyp (c : Bool) : (s.skipIf c).keyp = s.keyp := rfl
@[simp] theorem State.skipIf_disp (c : Bool) : (s.skipIf c).disp = s.disp := rfl
@[simp] theorem State.skipIf_draw (c : Bool) : (s.skipIf c).draw = s.draw := rfl
@[simp] theorem State.skipIf_halt (c : Bool) : (s.skipIf c).halt = s.halt := rfl
@[simp] theorem State.skipIf_diag (c : Bool) : (s.skipIf c).diag = s.diag := rfl
@[simp] theorem State.skipIf_draws (c : Bool) : (s.skipIf c).draws = s.draws := rfl
@[simp] theorem State.skipIf_params (c : Bool) : (s.skipIf c).params = s.params := rfl
@[simp] theorem State.skipIf_reg (c : Bool) (r : Reg) : (s.skipIf c).reg r = s.reg r := rfl
@[simp] theorem State.skipIf_slot (c : Bool) (j : Fin 16) : (s.skipIf c).slot j = s.slot j := rfl
@[simp] theorem State.skipIf_byteAt (c : Bool) (k : Nat) : (s.skipIf c).byteAt k = s.byteAt k := rfl
@[simp] theorem State.skipIf_base (c : Bool) : (s.skipIf c).base = s.base := rfl

/-! #### `push` -/

@[simp] theorem State.push_mem (w : Word) : (s.push w).mem = s.mem := rfl
@[simp] theorem State.push_v (w : Word) : (s.push w).v = s.v := rfl
@[simp] theorem State.push_i (w : Word) : (s.push w).i = s.i := rfl
@[simp] theorem State.push_pc (w : Word) : (s.push w).pc = s.pc := rfl
@[simp] theorem State.push_sp (w : Word) : (s.push w).sp = s.sp + 1 := rfl
@[simp] theorem State.push_stack (w : Word) : (s.push w).stack = s.stack.set s.sp.val w := rfl
@[simp] theorem State.push_dt (w : Word) : (s.push w).dt = s.dt := rfl
@[simp] theorem State.push_st (w : Word) : (s.push w).st = s.st := rfl
@[simp] theorem State.push_key (w : Word) : (s.push w).key = s.key := rfl
@[simp] theorem State.push_keyp (w : Word) : (s.push w).keyp = s.keyp := rfl
@[simp] theorem State.push_disp (w : Word) : (s.push w).disp = s.disp := rfl
@[simp] theorem State.push_draw (w : Word) : (s.push w).draw = s.draw := rfl
@[simp] theorem State.push_halt (w : Word) : (s.push w).halt = s.halt := rfl
@[simp] theorem State.push_diag (w : Word) : (s.push w).diag = s.diag := rfl
@[simp] theorem State.push_draws (w : Word) : (s.push w).draws = s.draws := rfl
@[simp] theorem State.push_params (w : Word) : (s.push w).params = s.params := rfl
@[simp] theorem State.push_reg (w : Word) (r : Reg) : (s.push w).reg r = s.reg r := rfl
@[simp] theorem State.push_byteAt (w : Word) (k : Nat) : (s.push w).byteAt k = s.byteAt k := rfl
@[simp] theorem State.push_base (w : Word) : (s.push w).base = s.base := rfl

/-! #### `pop` -/

@[simp] theorem State.pop_mem : s.pop.mem = s.mem := rfl
@[simp] theorem State.pop_v : s.pop.v = s.v := rfl
@[simp] theorem State.pop_i : s.pop.i = s.i := rfl
@[simp] theorem State.pop_pc : s.pop.pc = s.pc := rfl
@[simp] theorem State.pop_sp : s.pop.sp = s.sp - 1 := rfl
@[simp] theorem State.pop_stack : s.pop.stack = s.stack := rfl
@[simp] theorem State.pop_dt : s.pop.dt = s.dt := rfl
@[simp] theorem State.pop_st : s.pop.st = s.st := rfl
@[simp] theorem State.pop_key : s.pop.key = s.key := rfl
@[simp] theorem State.pop_keyp : s.pop.keyp = s.keyp := rfl
@[simp] theorem State.pop_disp : s.pop.disp = s.disp := rfl
@[simp] theorem State.pop_draw : s.pop.draw = s.draw := rfl
@[simp] theorem State.pop_halt : s.pop.halt = s.halt := rfl
@[simp] theorem State.pop_diag : s.pop.diag = s.diag := rfl
@[simp] theorem State.pop_draws : s.pop.draws = s.draws := rfl
@[simp] theorem State.pop_params : s.pop.params = s.params := rfl
@[simp] theorem State.pop_reg (r : Reg) : s.pop.reg r = s.reg r := rfl
@[simp] theorem State.pop_slot (j : Fin 16) : s.pop.slot j = s.slot j := rfl
@[simp] theorem State.pop_byteAt (k : Nat) : s.pop.byteAt k = s.byteAt k := rfl
@[simp] theorem State.pop_base : s.pop.base = s.base := rfl

/-! #### `setDt` -/

@[simp] theorem State.setDt_mem (b : Byte) : (s.setDt b).mem = s.mem := rfl
@[simp] theorem State.setDt_v (b : Byte) : (s.setDt b).v = s.v := rfl
@[simp] theorem State.setDt_i (b : Byte) : (s.setDt b).i = s.i := rfl
@[simp] theorem State.setDt_pc (b : Byte) : (s.setDt b).pc = s.pc := rfl
@[simp] theorem State.setDt_sp (b : Byte) : (s.setDt b).sp = s.sp := rfl
@[simp] theorem State.setDt_stack (b : Byte) : (s.setDt b).stack = s.stack := rfl
@[simp] theorem State.setDt_dt (b : Byte) : (s.setDt b).dt = b := rfl
@[simp] theorem State.setDt_st (b : Byte) : (s.setDt b).st = s.st := rfl
@[simp] theorem State.setDt_key (b : Byte) : (s.setDt b).key = s.key := rfl
@[simp] theorem State.setDt_keyp (b : Byte) : (s.setDt b).keyp = s.keyp := rfl
@[simp] theorem State.setDt_disp (b : Byte) : (s.setDt b).disp = s.disp := rfl
@[simp] theorem State.setDt_draw (b : Byte) : (s.setDt b).draw = s.draw := rfl
@[simp] theorem State.setDt_halt (b : Byte) : (s.setDt b).halt = s.halt := rfl
@[simp] theorem State.setDt_diag (b : Byte) : (s.setDt b).diag = s.diag := rfl
@[simp] theorem State.setDt_draws (b : Byte) : (s.setDt b).draws = s.draws := rfl
@[simp] theorem State.setDt_params (b : Byte) : (s.setDt b).params = s.params := rfl
@[simp] theorem State.setDt_reg (b : Byte) (r : Reg) : (s.setDt b).reg r = s.reg r := rfl
@[simp] theorem State.setDt_slot (b : Byte) (j : Fin 16) : (s.setDt b).slot j = s.slot j := rfl
@[simp] theorem State.setDt_byteAt (b : Byte) (k : Nat) : (s.setDt b).byteAt k = s.byteAt k := rfl
@[simp] theorem State.setDt_base (b : Byte) : (s.setDt b).base = s.base := rfl

/-! #### `setSt` -/

@[simp] theorem State.setSt_mem (b : Byte) : (s.setSt b).mem = s.mem := rfl
@[simp] theorem State.setSt_v (b : Byte) : (s.setSt b).v = s.v := rfl
@[simp] theorem State.setSt_i (b : Byte) : (s.setSt b).i = s.i := rfl
@[simp] theorem State.setSt_pc (b : Byte) : (s.setSt b).pc = s.pc := rfl
@[simp] theorem State.setSt_sp (b : Byte) : (s.setSt b).sp = s.sp := rfl
@[simp] theorem State.setSt_stack (b : Byte) : (s.setSt b).stack = s.stack := rfl
@[simp] theorem State.setSt_dt (b : Byte) : (s.setSt b).dt = s.dt := rfl
@[simp] theorem State.setSt_st (b : Byte) : (s.setSt b).st = b := rfl
@[simp] theorem State.setSt_key (b : Byte) : (s.setSt b).key = s.key := rfl
@[simp] theorem State.setSt_keyp (b : Byte) : (s.setSt b).keyp = s.keyp := rfl
@[simp] theorem State.setSt_disp (b : Byte) : (s.setSt b).disp = s.disp := rfl
@[simp] theorem State.setSt_draw (b : Byte) : (s.setSt b).draw = s.draw := rfl
@[simp] theorem State.setSt_halt (b : Byte) : (s.setSt b).halt = s.halt := rfl
@[simp] theorem State.setSt_diag (b : Byte) : (s.setSt b).diag = s.diag := rfl
@[simp] theorem State.setSt_draws (b : Byte) : (s.setSt b).draws = s.draws := rfl
@[simp] theorem State.setSt_params (b : Byte) : (s.setSt b).params = s.params := rfl
@[simp] theorem State.setSt_reg (b : Byte) (r : Reg) : (s.setSt b).reg r = s.reg r := rfl
@[simp] theorem State.setSt_slot (b : Byte) (j : Fin 16) : (s.setSt b).slot j = s.slot j := rfl
@[simp] theorem State.setSt_byteAt (b : Byte) (k : Nat) : (s.setSt b).byteAt k = s.byteAt k := rfl
@[simp] theorem State.setSt_base (b : Byte) : (s.setSt b).base = s.base := rfl

/-! #### `showDisplay` -/

@[simp] theorem State.showDisplay_mem (d : Display) : (s.showDisplay d).mem = s.mem := rfl
@[simp] theorem State.showDisplay_v (d : Display) : (s.showDisplay d).v = s.v := rfl
@[simp] theorem State.showDisplay_i (d : Display) : (s.showDisplay d).i = s.i := rfl
@[simp] theorem State.showDisplay_pc (d : Display) : (s.showDisplay d).pc = s.pc := rfl
@[simp] theorem State.showDisplay_sp (d : Display) : (s.showDisplay d).sp = s.sp := rfl
@[simp] theorem State.showDisplay_stack (d : Display) : (s.showDisplay d).stack = s.stack := rfl
@[simp] theorem State.showDisplay_dt (d : Display) : (s.showDisplay d).dt = s.dt := rfl
@[simp] theorem State.showDisplay_st (d : Display) : (s.showDisplay d).st = s.st := rfl
@[simp] theorem State.showDisplay_key (d : Display) : (s.showDisplay d).key = s.key := rfl
@[simp] theorem State.showDisplay_keyp (d : Display) : (s.showDisplay d).keyp = s.keyp := rfl
@[simp] theorem State.showDisplay_disp (d : Display) : (s.showDisplay d).disp = d := rfl
@[simp] theorem State.showDisplay_draw (d : Display) : (s.showDisplay d).draw = true := rfl
@[simp] theorem State.showDisplay_halt (d : Display) : (s.showDisplay d).halt = s.halt := rfl
@[simp] theorem State.showDisplay_diag (d : Display) : (s.showDisplay d).diag = s.diag := rfl
@[simp] theorem State.showDisplay_draws (d : Display) : (s.showDisplay d).draws = s.draws := rfl
@[simp] theorem State.showDisplay_params (d : Display) : (s.showDisplay d).params = s.params := rfl
@[simp] theorem State.showDisplay_reg (d : Display) (r : Reg) : (s.showDisplay d).reg r = s.reg r := rfl
@[simp] theorem State.showDisplay_slot (d : Display) (j : Fin 16) : (s.showDisplay d).slot j = s.slot j := rfl
@[simp] theorem State.showDisplay_byteAt (d : Display) (k : Nat) : (s.showDisplay d).byteAt k = s.byteAt k := rfl
@[simp] theorem State.showDisplay_base (d : Display) : (s.showDisplay d).base = s.base := rfl

/-! #### `countDraw` -/

@[simp] theorem State.countDraw_mem : s.countDraw.mem = s.mem := rfl
@[simp] theorem State.countDraw_v : s.countDraw.v = s.v := rfl
@[simp] theorem State.countDraw_i : s.countDraw.i = s.i := rfl
@[simp] theorem State.countDraw_pc : s.countDraw.pc = s.pc := rfl
@[simp] theorem State.countDraw_sp : s.countDraw.sp = s.sp := rfl
@[simp] theorem State.countDraw_stack : s.countDraw.stack = s.stack := rfl
@[simp] theorem State.countDraw_dt : s.countDraw.dt = s.dt := rfl
@[simp] theorem State.countDraw_st : s.countDraw.st = s.st := rfl
@[simp] theorem State.countDraw_key : s.countDraw.key = s.key := rfl
@[simp] theorem State.countDraw_keyp : s.countDraw.keyp = s.keyp := rfl
@[simp] theorem State.countDraw_disp : s.countDraw.disp = s.disp := rfl
@[simp] theorem State.countDraw_draw : s.countDraw.draw = s.draw := rfl
@[simp] theorem State.countDraw_halt : s.countDraw.halt = s.halt := rfl
@[simp] theorem State.countDraw_diag : s.countDraw.diag = s.diag := rfl
@[simp] theorem State.countDraw_draws : s.countDraw.draws = s.draws + 1 := rfl
@[simp] theorem State.countDraw_params : s.countDraw.params = s.params := rfl
@[simp] theorem State.countDraw_reg (r : Reg) : s.countDraw.reg r = s.reg r := rfl
@[simp] theorem State.countDraw_slot (j : Fin 16) : s.countDraw.slot j = s.slot j := rfl
@[simp] theorem State.countDraw_byteAt (k : Nat) : s.countDraw.byteAt k = s.byteAt k := rfl
@[simp] theorem State.countDraw_base : s.countDraw.base = s.base := rfl

/-! #### `haltWith` -/

@[simp] theorem State.haltWith_mem (e : Raised) : (s.haltWith e).mem = s.mem := rfl
@[simp] theorem State.haltWith_v (e : Raised) : (s.haltWith e).v = s.v := rfl
@[simp] theorem State.haltWith_i (e : Raised) : (s.haltWith e).i = s.i := rfl
@[simp] theorem State.haltWith_pc (e : Raised) : (s.haltWith e).pc = s.pc := rfl
@[simp] theorem State.haltWith_sp (e : Raised) : (s.haltWith e).sp = s.sp := rfl
@[simp] theorem State.haltWith_stack (e : Raised) : (s.haltWith e).stack = s.stack := rfl
@[simp] theorem State.haltWith_dt (e : Raised) : (s.haltWith e).dt = s.dt := rfl
@[simp] theorem State.haltWith_st (e : Raised) : (s.haltWith e).st = s.st := rfl
@[simp] theorem State.haltWith_key (e : Raised) : (s.haltWith e).key = s.key := rfl
@[simp] theorem State.haltWith_keyp (e : Raised) : (s.haltWith e).keyp = s.keyp := rfl
@[simp] theorem State.haltWith_disp (e : Raised) : (s.haltWith e).disp = s.disp := rfl
@[simp] theorem State.haltWith_draw (e : Raised) : (s.haltWith e).draw = s.draw := rfl
@[simp] theorem State.haltWith_halt (e : Raised) : (s.haltWith e).halt = some (s.faultRecord e) := rfl
@[simp] theorem State.haltWith_diag (e : Raised) : (s.haltWith e).diag = s.diag := rfl
@[simp] theorem State.haltWith_draws (e : Raised) : (s.haltWith e).draws = s.draws := rfl
@[simp] theorem State.haltWith_params (e : Raised) : (s.haltWith e).params = s.params := rfl
@[simp] theorem State.haltWith_reg (e : Raised) (r : Reg) : (s.haltWith e).reg r = s.reg r := rfl
@[simp] theorem State.haltWith_slot (e : Raised) (j : Fin 16) : (s.haltWith e).slot j = s.slot j := rfl
@[simp] theorem State.haltWith_byteAt (e : Raised) (k : Nat) : (s.haltWith e).byteAt k = s.byteAt k := rfl
@[simp] theorem State.haltWith_base (e : Raised) : (s.haltWith e).base = s.base := rfl

/-! #### `reportUnknown` -/

@[simp] theorem State.reportUnknown_mem (w : Word) : (s.reportUnknown w).mem = s.mem := rfl
@[simp] theorem State.reportUnknown_v (w : Word) : (s.reportUnknown w).v = s.v := rfl
@[simp] theorem State.reportUnknown_i (w : Word) : (s.reportUnknown w).i = s.i := rfl
@[simp] theorem State.reportUnknown_pc (w : Word) : (s.reportUnknown w).pc = s.pc + 2 := rfl
@[simp] theorem State.reportUnknown_sp (w : Word) : (s.reportUnknown w).sp = s.sp := rfl
@[simp] theorem State.reportUnknown_stack (w : Word) : (s.reportUnknown w).stack = s.stack := rfl
@[simp] theorem State.reportUnknown_dt (w : Word) : (s.reportUnknown w).dt = s.dt := rfl
@[simp] theorem State.reportUnknown_st (w : Word) : (s.reportUnknown w).st = s.st := rfl
@[simp] theorem State.reportUnknown_key (w : Word) : (s.reportUnknown w).key = s.key := rfl
@[simp] theorem State.reportUnknown_keyp (w : Word) : (s.reportUnknown w).keyp = s.keyp := rfl
@[simp] theorem State.reportUnknown_disp (w : Word) : (s.reportUnknown w).disp = s.disp := rfl
@[simp] theorem State.reportUnknown_draw (w : Word) : (s.reportUnknown w).draw = s.draw := rfl
@[simp] theorem State.reportUnknown_halt (w : Word) : (s.reportUnknown w).halt = s.halt := rfl
@[simp] theorem State.reportUnknown_diag (w : Word) : (s.reportUnknown w).diag = s.diag ++ [⟨s.pc, w⟩] := rfl
@[simp] theorem State.reportUnknown_draws (w : Word) : (s.reportUnknown w).draws = s.draws := rfl
@[simp] theorem State.reportUnknown_params (w : Word) : (s.reportUnknown w).params = s.params := rfl
@[simp] theorem State.reportUnknown_reg (w : Word) (r : Reg) : (s.reportUnknown w).reg r = s.reg r := rfl
@[simp] theorem State.reportUnknown_slot (w : Word) (j : Fin 16) : (s.reportUnknown w).slot j = s.slot j := rfl
@[simp] theorem State.reportUnknown_byteAt (w : Word) (k : Nat) : (s.reportUnknown w).byteAt k = s.byteAt k := rfl
@[simp] theorem State.reportUnknown_base (w : Word) : (s.reportUnknown w).base = s.base := rfl

/-! #### `setResultThenFlag` -/

@[simp] theorem State.setResultThenFlag_mem (x : Reg) (a f : Byte) : (s.setResultThenFlag x a f).mem = s.mem := rfl
@[simp] theorem State.setResultThenFlag_v (x : Reg) (a f : Byte) : (s.setResultThenFlag x a f).v = (s.v.set x.val a).set 15 f := rfl
@[simp] theorem State.setResultThenFlag_i (x : Reg) (a f : Byte) : (s.setResultThenFlag x a f).i = s.i := rfl
@[simp] theorem State.setResultThenFlag_pc (x : Reg) (a f : Byte) : (s.setResultThenFlag x a f).pc = s.pc := rfl
@[simp] theorem State.setResultThenFlag_sp (x : Reg) (a f : Byte) : (s.setResultThenFlag x a f).sp = s.sp := rfl
@[simp] theorem State.setResultThenFlag_stack (x : Reg) (a f : Byte) : (s.setResultThenFlag x a f).stack = s.stack := rfl
@[simp] theorem State.setResultThenFlag_dt (x : Reg) (a f : Byte) : (s.setResultThenFlag x a f).dt = s.dt := rfl
@[simp] theorem State.setResultThenFlag_st (x : Reg) (a f : Byte) : (s.setResultThenFlag x a f).st = s.st := rfl
@[simp] theorem State.setResultThenFlag_key (x : Reg) (a f : Byte) : (s.setResultThenFlag x a f).key = s.key := rfl
@[simp] theorem State.setResultThenFlag_keyp (x : Reg) (a f : Byte) : (s.setResultThenFlag x a f).keyp = s.keyp := rfl
@[simp] theorem State.setResultThenFlag_disp (x : Reg) (a f : Byte) : (s.setResultThenFlag x a f).disp = s.disp := rfl
@[simp] theorem State.setResultThenFlag_draw (x : Reg) (a f : Byte) : (s.setResultThenFlag x a f).draw = s.draw := rfl
@[simp] theorem State.setResultThenFlag_halt (x : Reg) (a f : Byte) : (s.setResultThenFlag x a f).halt = s.halt := rfl
@[simp] theorem State.setResultThenFlag_diag (x : Reg) (a f : Byte) : (s.setResultThenFlag x a f).diag = s.diag := rfl
@[simp] theorem State.setResultThenFlag_draws (x : Reg) (a f : Byte) : (s.setResultThenFlag x a f).draws = s.draws := rfl
@[simp] theorem State.setResultThenFlag_params (x : Reg) (a f : Byte) : (s.setResultThenFlag x a f).params = s.params := rfl
@[simp] theorem State.setResultThenFlag_slot (x : Reg) (a f : Byte) (j : Fin 16) : (s.setResultThenFlag x a f).slot j = s.slot j := rfl
@[simp] theorem State.setResultThenFlag_byteAt (x : Reg) (a f : Byte) (k : Nat) : (s.setResultThenFlag x a f).byteAt k = s.byteAt k := rfl
@[simp] theorem State.setResultThenFlag_base (x : Reg) (a f : Byte) : (s.setResultThenFlag x a f).base = s.base := rfl

/-! #### `setFlagThenResult` -/

@[simp] theorem State.setFlagThenResult_mem (x : Reg) (a f : Byte) : (s.setFlagThenResult x a f).mem = s.mem := rfl
@[simp] theorem State.setFlagThenResult_v (x : Reg) (a f : Byte) : (s.setFlagThenResult x a f).v = (s.v.set 15 f).set x.val a := rfl
@[simp] theorem State.setFlagThenResult_i (x : Reg) (a f : Byte) : (s.setFlagThenResult x a f).i = s.i := rfl
@[simp] theorem State.setFlagThenResult_pc (x : Reg) (a f : Byte) : (s.setFlagThenResult x a f).pc = s.pc := rfl
@[simp] theorem State.setFlagThenResult_sp (x : Reg) (a f : Byte) : (s.setFlagThenResult x a f).sp = s.sp := rfl
@[simp] theorem State.setFlagThenResult_stack (x : Reg) (a f : Byte) : (s.setFlagThenResult x a f).stack = s.stack := rfl
@[simp] theorem State.setFlagThenResult_dt (x : Reg) (a f : Byte) : (s.setFlagThenResult x a f).dt = s.dt := rfl
@[simp] theorem State.setFlagThenResult_st (x : Reg) (a f : Byte) : (s.setFlagThenResult x a f).st = s.st := rfl
@[simp] theorem State.setFlagThenResult_key (x : Reg) (a f : Byte) : (s.setFlagThenResult x a f).key = s.key := rfl
@[simp] theorem State.setFlagThenResult_keyp (x : Reg) (a f : Byte) : (s.setFlagThenResult x a f).keyp = s.keyp := rfl
@[simp] theorem State.setFlagThenResult_disp (x : Reg) (a f : Byte) : (s.setFlagThenResult x a f).disp = s.disp := rfl
@[simp] theorem State.setFlagThenResult_draw (x : Reg) (a f : Byte) : (s.setFlagThenResult x a f).draw = s.draw := rfl
@[simp] theorem State.setFlagThenResult_halt (x : Reg) (a f : Byte) : (s.setFlagThenResult x a f).halt = s.halt := rfl
@[simp] theorem State.setFlagThenResult_diag (x : Reg) (a f : Byte) : (s.setFlagThenResult x a f).diag = s.diag := rfl
@[simp] theorem State.setFlagThenResult_draws (x : Reg) (a f : Byte) : (s.setFlagThenResult x a f).draws = s.draws := rfl
@[simp] theorem State.setFlagThenResult_params (x : Reg) (a f : Byte) : (s.setFlagThenResult x a f).params = s.params := rfl
@[simp] theorem State.setFlagThenResult_slot (x : Reg) (a f : Byte) (j : Fin 16) : (s.setFlagThenResult x a f).slot j = s.slot j := rfl
@[simp] theorem State.setFlagThenResult_byteAt (x : Reg) (a f : Byte) (k : Nat) : (s.setFlagThenResult x a f).byteAt k = s.byteAt k := rfl
@[simp] theorem State.setFlagThenResult_base (x : Reg) (a f : Byte) : (s.setFlagThenResult x a f).base = s.base := rfl

/-! #### `placeWordAtPc` -/

@[simp] theorem State.placeWordAtPc_mem (hi lo : Byte) : (s.placeWordAtPc hi lo).mem = (s.mem.write s.pc.toNat hi).write (s.pc.toNat + 1) lo := rfl
@[simp] theorem State.placeWordAtPc_v (hi lo : Byte) : (s.placeWordAtPc hi lo).v = s.v := rfl
@[simp] theorem State.placeWordAtPc_i (hi lo : Byte) : (s.placeWordAtPc hi lo).i = s.i := rfl
@[simp] theorem State.placeWordAtPc_pc (hi lo : Byte) : (s.placeWordAtPc hi lo).pc = s.pc := rfl
@[simp] theorem State.placeWordAtPc_sp (hi lo : Byte) : (s.placeWordAtPc hi lo).sp = s.sp := rfl
@[simp] theorem State.placeWordAtPc_stack (hi lo : Byte) : (s.placeWordAtPc hi lo).stack = s.stack := rfl
@[simp] theorem State.placeWordAtPc_dt (hi lo : Byte) : (s.placeWordAtPc hi lo).dt = s.dt := rfl
@[simp] theorem State.placeWordAtPc_st (hi lo : Byte) : (s.placeWordAtPc hi lo).st = s.st := rfl
@[simp] theorem State.placeWordAtPc_key (hi lo : Byte) : (s.placeWordAtPc hi lo).key = s.key := rfl
@[simp] theorem State.placeWordAtPc_keyp (hi lo : Byte) : (s.placeWordAtPc hi lo).keyp = s.keyp := rfl
@[simp] theorem State.placeWordAtPc_disp (hi lo : Byte) : (s.placeWordAtPc hi lo).disp = s.disp := rfl
@[simp] theorem State.placeWordAtPc_draw (hi lo : Byte) : (s.placeWordAtPc hi lo).draw = s.draw := rfl
@[simp] theorem State.placeWordAtPc_halt (hi lo : Byte) : (s.placeWordAtPc hi lo).halt = s.halt := rfl
@[simp] theorem State.placeWordAtPc_diag (hi lo : Byte) : (s.placeWordAtPc hi lo).diag = s.diag := rfl
@[simp] theorem State.placeWordAtPc_draws (hi lo : Byte) : (s.placeWordAtPc hi lo).draws = s.draws := rfl
@[simp] theorem State.placeWordAtPc_params (hi lo : Byte) : (s.placeWordAtPc hi lo).params = s.params := rfl
@[simp] theorem State.placeWordAtPc_reg (hi lo : Byte) (r : Reg) : (s.placeWordAtPc hi lo).reg r = s.reg r := rfl
@[simp] theorem State.placeWordAtPc_slot (hi lo : Byte) (j : Fin 16) : (s.placeWordAtPc hi lo).slot j = s.slot j := rfl
@[simp] theorem State.placeWordAtPc_base (hi lo : Byte) : (s.placeWordAtPc hi lo).base = s.base := rfl

/-! #### `tick` -/

@[simp] theorem State.tick_mem : s.tick.mem = s.mem := rfl
@[simp] theorem State.tick_v : s.tick.v = s.v := rfl
@[simp] theorem State.tick_i : s.tick.i = s.i := rfl
@[simp] theorem State.tick_pc : s.tick.pc = s.pc := rfl
@[simp] theorem State.tick_sp : s.tick.sp = s.sp := rfl
@[simp] theorem State.tick_stack : s.tick.stack = s.stack := rfl
@[simp] theorem State.tick_dt : s.tick.dt = countDown s.dt := rfl
@[simp] theorem State.tick_st : s.tick.st = countDown s.st := rfl
@[simp] theorem State.tick_key : s.tick.key = s.key := rfl
@[simp] theorem State.tick_keyp : s.tick.keyp = s.keyp := rfl
@[simp] theorem State.tick_disp : s.tick.disp = s.disp := rfl
@[simp] theorem State.tick_draw : s.tick.draw = s.draw := rfl
@[simp] theorem State.tick_halt : s.tick.halt = s.halt := rfl
@[simp] theorem State.tick_diag : s.tick.diag = s.diag := rfl
@[simp] theorem State.tick_draws : s.tick.draws = s.draws := rfl
@[simp] theorem State.tick_params : s.tick.params = s.params := rfl
@[simp] theorem State.tick_reg (r : Reg) : s.tick.reg r = s.reg r := rfl
@[simp] theorem State.tick_slot (j : Fin 16) : s.tick.slot j = s.slot j := rfl
@[simp] theorem State.tick_byteAt (k : Nat) : s.tick.byteAt k = s.byteAt k := rfl
@[simp] theorem State.tick_base : s.tick.base = s.base := rfl

/-! #### `keyEdit` -/

@[simp] theorem State.keyEdit_mem (w : Word) : (s.keyEdit w).mem = s.mem := rfl
@[simp] theorem State.keyEdit_v (w : Word) : (s.keyEdit w).v = s.v := rfl
@[simp] theorem State.keyEdit_i (w : Word) : (s.keyEdit w).i = s.i := rfl
@[simp] theorem State.keyEdit_pc (w : Word) : (s.keyEdit w).pc = s.pc := rfl
@[simp] theorem State.keyEdit_sp (w : Word) : (s.keyEdit w).sp = s.sp := rfl
@[simp] theorem State.keyEdit_stack (w : Word) : (s.keyEdit w).stack = s.stack := rfl
@[simp] theorem State.keyEdit_dt (w : Word) : (s.keyEdit w).dt = s.dt := rfl
@[simp] theorem State.keyEdit_st (w : Word) : (s.keyEdit w).st = s.st := rfl
@[simp] theorem State.keyEdit_key (w : Word) : (s.keyEdit w).key = w := rfl
@[simp] theorem State.keyEdit_keyp (w : Word) : (s.keyEdit w).keyp = s.key := rfl
@[simp] theorem State.keyEdit_disp (w : Word) : (s.keyEdit w).disp = s.disp := rfl
@[simp] theorem State.keyEdit_draw (w : Word) : (s.keyEdit w).draw = s.draw := rfl
@[simp] theorem State.keyEdit_halt (w : Word) : (s.keyEdit w).halt = s.halt := rfl
@[simp] theorem State.keyEdit_diag (w : Word) : (s.keyEdit w).diag = s.diag := rfl
@[simp] theorem State.keyEdit_draws (w : Word) : (s.keyEdit w).draws = s.draws := rfl
@[simp] theorem State.keyEdit_params (w : Word) : (s.keyEdit w).params = s.params := rfl
@[simp] theorem State.keyEdit_reg (w : Word) (r : Reg) : (s.keyEdit w).reg r = s.reg r := rfl
@[simp] theorem State.keyEdit_slot (w : Word) (j : Fin 16) : (s.keyEdit w).slot j = s.slot j := rfl
@[simp] theorem State.keyEdit_byteAt (w : Word) (k : Nat) : (s.keyEdit w).byteAt k = s.byteAt k := rfl
@[simp] theorem State.keyEdit_base (w : Word) : (s.keyEdit w).base = s.base := rfl

end Updates

end Sys2Proof.Machine
end

