-- ==== Sys2Proof/Laws/Ops.lean ====
section
/-! SUPPORT. What each shared operation does, said once: registers, stack, checks, stores, loads, the fault record and the
fetch. The later proofs cite these lemmas and do not unfold the operations. -/

namespace Sys2Proof.Machine

/-! ### Registers and stack -/

theorem State.reg_setReg (s : State) (x y : Reg) (b : Byte) :
    (s.setReg x b).reg y = if y = x then b else s.reg y := by
  simp only [State.reg, State.setReg, Vector.getElem_set, Fin.ext_iff, eq_comm]

@[simp] theorem State.reg_setReg_same (s : State) (x : Reg) (b : Byte) : (s.setReg x b).reg x = b := by
  simp [State.reg_setReg]

theorem State.reg_setReg_other (s : State) {x y : Reg} (b : Byte) (h : y ≠ x) : (s.setReg x b).reg y = s.reg y := by
  simp [State.reg_setReg, h]

theorem State.reg_setResultThenFlag (s : State) (x y : Reg) (a f : Byte) :
    (s.setResultThenFlag x a f).reg y = if y = VF then f else if y = x then a else s.reg y := by
  simp [State.setResultThenFlag, State.reg_setReg]

theorem State.reg_setFlagThenResult (s : State) (x y : Reg) (a f : Byte) :
    (s.setFlagThenResult x a f).reg y = if y = x then a else if y = VF then f else s.reg y := by
  simp [State.setFlagThenResult, State.reg_setReg]

theorem getElem_writeRegsFrom (bs : List Byte) (k : Nat) (v : Vector Byte 16) (j : Nat) (hj : j < 16) :
    (writeRegsFrom k bs v)[j] = if k ≤ j then (bs[j - k]?).getD v[j] else v[j] := by
  induction bs generalizing k v with
  | nil => simp [writeRegsFrom]
  | cons b bs ih =>
    rw [writeRegsFrom, ih]
    by_cases h1 : k + 1 ≤ j
    · have e : j - k = (j - (k + 1)) + 1 := by omega
      rw [if_pos h1, if_pos (by omega), e, List.getElem?_cons_succ, Vector.getElem_setIfInBounds_ne hj (by omega)]
    · by_cases h2 : k = j
      · subst h2
        simp
      · rw [if_neg h1, if_neg (by omega), Vector.getElem_setIfInBounds_ne hj h2]

/-- The registers after a block of bytes is written from `V[0]` upward. -/
theorem State.reg_setRegs (s : State) (bs : List Byte) (r : Reg) :
    (s.setRegs bs).reg r = (bs[r.val]?).getD (s.reg r) := by
  simp [State.reg, State.setRegs, getElem_writeRegsFrom]

theorem State.slot_push (s : State) (w : Word) (j : Fin 16) :
    (s.push w).slot j = if j = s.sp then w else s.slot j := by
  simp only [State.slot, State.push, Vector.getElem_set, Fin.ext_iff, eq_comm]

@[simp] theorem State.length_regsUpTo (s : State) (x : Reg) : (s.regsUpTo x).length = x.val + 1 := by
  simp [State.regsUpTo]

/-- The bytes `Fx55` stores are the registers in order. -/
theorem State.getElem?_regsUpTo (s : State) (x : Reg) {k : Nat} (h : k ≤ x.val) (hk : k < 16) :
    (s.regsUpTo x)[k]? = some (s.reg ⟨k, hk⟩) := by
  simp [State.regsUpTo, State.reg, Nat.lt_succ_of_le h]

/-! ### Loads -/

@[simp] theorem State.length_bytesAt (s : State) (base len : Nat) : (s.bytesAt base len).length = len := by
  simp [State.bytesAt]

theorem State.getElem?_bytesAt (s : State) (base len k : Nat) (h : k < len) :
    (s.bytesAt base len)[k]? = some (s.byteAt (base + k)) := by
  simp [State.bytesAt, h]

theorem State.bytesAt_succ (s : State) (base len : Nat) :
    s.bytesAt base (len + 1) = s.byteAt base :: s.bytesAt (base + 1) len := by
  simp [State.bytesAt, List.range'_succ]

/-! ### Checks -/

theorem checkRead_none {a : Nat} (h : a < 4096) : checkRead a = none := by
  simp [checkRead, h]

theorem checkRead_some {a : Nat} (h : 4096 ≤ a) : checkRead a = some ⟨.outOfBounds, a⟩ := by
  simp [checkRead, h]

/-- The reads of a block succeed when the block is empty or ends inside memory; else the lowest address outside it is
recorded (60_exceptions.md R243). -/
theorem checkReads_eq (base len : Nat) :
    checkReads base len = if len = 0 ∨ base + len ≤ 4096 then none else some ⟨.outOfBounds, max base 4096⟩ := by
  induction len generalizing base with
  | zero => simp [checkReads]
  | succ len ih =>
    have e : checkReads base (len + 1) = (checkRead base).or (checkReads (base + 1) len) := by
      simp only [checkReads, List.range'_succ, List.findSome?_cons]
      cases checkRead base <;> rfl
    rw [e]
    by_cases h : base < 4096
    · rw [checkRead_none h, Option.none_or, ih]
      by_cases h0 : len = 0
      · subst h0
        rw [if_pos (.inl rfl), if_pos (.inr (by omega))]
      · by_cases h1 : base + 1 + len ≤ 4096
        · rw [if_pos (.inr h1), if_pos (.inr (by omega))]
        · rw [if_neg (by omega), if_neg (by omega)]
          congr 2
          omega
    · rw [checkRead_some (by omega), Option.some_or, if_neg (by omega)]
      congr 2
      omega

theorem checkReads_none {base len : Nat} (h : len = 0 ∨ base + len ≤ 4096) : checkReads base len = none := by
  rw [checkReads_eq, if_pos h]

theorem checkReads_some {base len : Nat} (h0 : 0 < len) (h : 4096 < base + len) :
    checkReads base len = some ⟨.outOfBounds, max base 4096⟩ := by
  rw [checkReads_eq, if_neg (by omega)]

/-- A write's check passes exactly at the writable addresses. -/
theorem checkWrite_none_iff (s : State) (a : Nat) : checkWrite s.params a = none ↔ Writable s a := by
  unfold checkWrite Writable Config.memSize Config.fontLen Config.progBase
  constructor
  · intro h
    split at h
    · cases h
    · split at h
      · cases h
      · split at h
        · cases h
        · exact ⟨by omega, fun h1 h2 => by simp_all, fun h1 h3 h2 => by simp_all⟩
  · rintro ⟨h1, h2, h3⟩
    rw [if_neg (by omega), if_neg (fun h => h2 h.1 h.2), if_neg (fun h => h3 h.1 h.2.1 h.2.2)]

/-- A write's check that does not pass records the address, under the kind its place in memory gives. -/
theorem checkWrite_of_not_writable {s : State} {a : Nat} (h : ¬ Writable s a) :
    checkWrite s.params a = some ⟨writeErrorKind a, a⟩ := by
  have hn := mt (checkWrite_none_iff s a).1 h
  revert hn
  unfold checkWrite writeErrorKind Config.memSize Config.fontLen Config.progBase
  by_cases h4 : 4096 ≤ a
  · simp [h4]
  · simp only [h4, if_false]
    split
    · exact fun _ => rfl
    · split
      · exact fun _ => rfl
      · exact fun hn => absurd rfl hn

theorem checkWrites_succ (p : Params) (base len : Nat) :
    checkWrites p base (len + 1) = (checkWrite p base).or (checkWrites p (base + 1) len) := by
  simp only [checkWrites, List.range'_succ, List.findSome?_cons]
  cases checkWrite p base <;> rfl

/-- The writes of a block pass their checks exactly when every address is writable. -/
theorem checkWrites_none_iff (s : State) (base len : Nat) :
    checkWrites s.params base len = none ↔ ∀ k < len, Writable s (base + k) := by
  induction len generalizing base with
  | zero => simp [checkWrites]
  | succ len ih =>
    rw [checkWrites_succ, Option.or_eq_none_iff, checkWrite_none_iff, ih]
    constructor
    · rintro ⟨h0, h1⟩ k hk
      cases k with
      | zero => exact h0
      | succ k =>
        have := h1 k (by omega)
        rwa [Nat.add_assoc, Nat.add_comm 1 k] at this
    · intro h
      refine ⟨h 0 (by omega), fun k hk => ?_⟩
      have := h (k + 1) (by omega)
      rwa [Nat.add_assoc, Nat.add_comm 1 k]

/-- The first address of a block that is not writable is the one recorded (60_exceptions.md R248). -/
theorem checkWrites_some {s : State} {base len k : Nat} (hk : k < len) (hbelow : ∀ j < k, Writable s (base + j))
    (hbad : ¬ Writable s (base + k)) :
    checkWrites s.params base len = some ⟨writeErrorKind (base + k), base + k⟩ := by
  induction len generalizing base k with
  | zero => omega
  | succ len ih =>
    rw [checkWrites_succ]
    cases k with
    | zero =>
      rw [Nat.add_zero] at hbad ⊢
      rw [checkWrite_of_not_writable hbad, Option.some_or, Nat.add_zero]
    | succ k =>
      have h0 := (checkWrite_none_iff s base).2 (hbelow 0 (by omega))
      have e : base + (k + 1) = base + 1 + k := by omega
      rw [h0, Option.none_or, e]
      refine ih (by omega) (fun j hj => ?_) (by rwa [e] at hbad)
      have := hbelow (j + 1) (by omega)
      rwa [Nat.add_assoc, Nat.add_comm 1 j]

/-- The check of a block answers an error exactly at its first address that is not writable. -/
theorem checkWrites_some_cases {s : State} {base len : Nat} {e : Raised} (h : checkWrites s.params base len = some e) :
    ∃ k < len, (∀ j < k, Writable s (base + j)) ∧ ¬ Writable s (base + k) ∧
      e = ⟨writeErrorKind (base + k), base + k⟩ := by
  have hne : ¬ ∀ k < len, Writable s (base + k) := by
    rw [← checkWrites_none_iff, h]
    simp
  push Not at hne
  classical
  obtain ⟨hk1, hk2⟩ := Nat.find_spec hne
  have hmin := fun j (hj : j < Nat.find hne) => Nat.find_min hne hj
  have hbelow : ∀ j < Nat.find hne, Writable s (base + j) := by
    intro j hj
    by_contra hw
    exact hmin j hj ⟨by omega, hw⟩
  refine ⟨Nat.find hne, hk1, hbelow, hk2, ?_⟩
  have := checkWrites_some hk1 hbelow hk2
  rw [h] at this
  exact Option.some.inj this

/-! ### Stores -/

theorem writeIgnored_iff (s : State) (a : Nat) : writeIgnored s.params a = true ↔ Dropped s a := by
  unfold writeIgnored Dropped
  by_cases h1 : a < 80
  · have h80 : ¬ 80 ≤ a := by omega
    simp [h1, h80]
  · by_cases h2 : a < 512 <;> simp [h1, h2, Nat.le_of_not_lt h1]

/-- One store: the byte at its address unless the policy drops it or the address does not exist, all else as before. -/
theorem State.byteAt_doWrite (s : State) (a b : Nat) (v : Byte) :
    (s.doWrite a v).byteAt b = if b = a ∧ a < 4096 ∧ writeIgnored s.params a = false then v else s.byteAt b := by
  unfold State.doWrite State.byteAt
  by_cases h : writeIgnored s.params a = true
  · simp [h]
  · rw [if_neg h, Memory.read_write]
    simp [h]

/-- A store changes memory alone. -/
theorem State.doWrite_eq (s : State) (a : Nat) (v : Byte) : s.doWrite a v = { s with mem := (s.doWrite a v).mem } := by
  unfold State.doWrite
  split <;> rfl

/-- A block of stores changes memory alone. -/
theorem State.doWrites_eq (s : State) (a : Nat) (bs : List Byte) :
    s.doWrites a bs = { s with mem := (s.doWrites a bs).mem } := by
  induction bs generalizing s a with
  | nil => rfl
  | cons b bs ih =>
    rw [State.doWrites, ih, State.doWrite_eq]

/-- The memory a block of stores leaves depends on the memory and the write policies before it, and on nothing else. -/
theorem State.doWrites_mem_congr (a : Nat) (bs : List Byte) {s t : State} (hm : s.mem = t.mem)
    (hp : s.params = t.params) : (s.doWrites a bs).mem = (t.doWrites a bs).mem := by
  induction bs generalizing a s t with
  | nil => exact hm
  | cons b bs ih =>
    refine ih (a + 1) ?_ ?_
    · simp only [State.doWrite, hp]; split <;> simp [hm]
    · simp only [State.doWrite, hp]; split <;> simp [hp]

section DoWritesFields

variable (s : State) (a : Nat) (bs : List Byte)

@[simp] theorem State.doWrites_v : (s.doWrites a bs).v = s.v := by rw [State.doWrites_eq]
@[simp] theorem State.doWrites_i : (s.doWrites a bs).i = s.i := by rw [State.doWrites_eq]
@[simp] theorem State.doWrites_pc : (s.doWrites a bs).pc = s.pc := by rw [State.doWrites_eq]
@[simp] theorem State.doWrites_sp : (s.doWrites a bs).sp = s.sp := by rw [State.doWrites_eq]
@[simp] theorem State.doWrites_stack : (s.doWrites a bs).stack = s.stack := by rw [State.doWrites_eq]
@[simp] theorem State.doWrites_dt : (s.doWrites a bs).dt = s.dt := by rw [State.doWrites_eq]
@[simp] theorem State.doWrites_st : (s.doWrites a bs).st = s.st := by rw [State.doWrites_eq]
@[simp] theorem State.doWrites_key : (s.doWrites a bs).key = s.key := by rw [State.doWrites_eq]
@[simp] theorem State.doWrites_keyp : (s.doWrites a bs).keyp = s.keyp := by rw [State.doWrites_eq]
@[simp] theorem State.doWrites_disp : (s.doWrites a bs).disp = s.disp := by rw [State.doWrites_eq]
@[simp] theorem State.doWrites_draw : (s.doWrites a bs).draw = s.draw := by rw [State.doWrites_eq]
@[simp] theorem State.doWrites_halt : (s.doWrites a bs).halt = s.halt := by rw [State.doWrites_eq]
@[simp] theorem State.doWrites_diag : (s.doWrites a bs).diag = s.diag := by rw [State.doWrites_eq]
@[simp] theorem State.doWrites_draws : (s.doWrites a bs).draws = s.draws := by rw [State.doWrites_eq]
@[simp] theorem State.doWrites_params : (s.doWrites a bs).params = s.params := by rw [State.doWrites_eq]
@[simp] theorem State.doWrites_reg (r : Reg) : (s.doWrites a bs).reg r = s.reg r := by simp [State.reg]
@[simp] theorem State.doWrites_slot (j : Fin 16) : (s.doWrites a bs).slot j = s.slot j := by simp [State.slot]

end DoWritesFields

/-- A block of stores: byte k of the block at `a + k`, unless its policy drops it; all else as before. -/
theorem State.byteAt_doWrites (s : State) (a : Nat) (bs : List Byte) (b : Nat) (hlen : a + bs.length ≤ 4096) :
    (s.doWrites a bs).byteAt b =
      if a ≤ b ∧ b < a + bs.length ∧ writeIgnored s.params b = false then (bs[b - a]?).getD 0 else s.byteAt b := by
  induction bs generalizing s a with
  | nil =>
    rw [State.doWrites, if_neg (by simp only [List.length_nil]; omega)]
  | cons v bs ih =>
    simp only [List.length_cons] at hlen
    have hp : (s.doWrite a v).params = s.params := by rw [State.doWrite_eq]
    rw [State.doWrites, ih (s.doWrite a v) (a + 1) (by omega), hp, State.byteAt_doWrite]
    simp only [List.length_cons]
    by_cases hb : b = a
    · subst hb
      rw [if_neg (by omega)]
      by_cases hi : writeIgnored s.params b = false
      · rw [if_pos ⟨rfl, by omega, hi⟩, if_pos ⟨by omega, by omega, hi⟩]
        simp
      · rw [if_neg (by simp [hi]), if_neg (by simp [hi])]
    · by_cases hr : a + 1 ≤ b ∧ b < a + 1 + bs.length ∧ writeIgnored s.params b = false
      · have e : b - a = (b - (a + 1)) + 1 := by omega
        rw [if_pos hr, if_pos ⟨by omega, by omega, hr.2.2⟩, e, List.getElem?_cons_succ]
      · rw [if_neg hr, if_neg (fun h => hb h.1), if_neg (fun h => hr ⟨by omega, by omega, h.2.2⟩)]

/-- A block of stores keeps memory canonical. -/
theorem State.doWrites_wf {s : State} (a : Nat) (bs : List Byte) (h : s.mem.wf) : (s.doWrites a bs).mem.wf := by
  induction bs generalizing s a with
  | nil => exact h
  | cons b bs ih =>
    refine ih _ ?_
    unfold State.doWrite
    split
    · exact h
    · exact Memory.write_wf _ _ h

/-! ### The fault record and the fetch -/

/-- The raw bytes of a record: two after a successful fetch, one at 4095, none beyond (40_cycle.md R112). -/
theorem State.rawAtPc_eq (s : State) :
    s.rawAtPc = if s.pc.toNat + 1 < 4096 then [s.byteAt s.pc.toNat, s.byteAt (s.pc.toNat + 1)]
      else if s.pc.toNat < 4096 then [s.byteAt s.pc.toNat] else [] := by
  unfold State.rawAtPc
  by_cases h1 : s.pc.toNat + 1 < 4096
  · have h0 : s.pc.toNat < 4096 := by omega
    simp [h1, h0, List.range'_succ]
  · by_cases h0 : s.pc.toNat < 4096
    · simp [h1, h0, List.range'_succ]
    · simp [h1, h0, List.range'_succ]

/-- The halted state differs from the state before in `HALT` alone (60_exceptions.md R242). -/
theorem haltWith_unchanged (s : State) (e : Raised) : UnchangedBut [.halt] s (s.haltWith e) := by
  intro f hf
  cases f <;> simp_all [AgreeOn]

theorem haltWith_haltedBy (s : State) (e : Raised) : HaltedBy e.kind e.addr s (s.haltWith e) := by
  refine ⟨⟨s.rawAtPc, rfl, fun h => ?_⟩, haltWith_unchanged s e⟩
  rw [State.rawAtPc_eq, if_pos h]

theorem afterCheck_none (s t : State) : afterCheck none s t = .next t := rfl

theorem afterCheck_some (e : Raised) (s t : State) : afterCheck (some e) s t = .next (s.haltWith e) := rfl

/-- Whatever the check says, the answer is a next state: the effect's, or the halted one. -/
theorem afterCheck_cases {c : Option Raised} {s t u : State} (h : afterCheck c s t = .next u) :
    (c = none ∧ u = t) ∨ ∃ e, c = some e ∧ u = s.haltWith e := by
  cases c with
  | none => exact .inl ⟨rfl, by cases h; rfl⟩
  | some e => exact .inr ⟨e, rfl, by cases h; rfl⟩

theorem toNat_wordOfBytes (hi lo : Byte) : (wordOfBytes hi lo).toNat = hi.toNat * 256 + lo.toNat := by
  unfold wordOfBytes
  rw [BitVec.toNat_append, Nat.shiftLeft_eq, ← Nat.mul_comm (2 ^ 8), ← Nat.two_pow_add_eq_or_of_lt lo.isLt]

/-- A fetch inside memory gives the big-endian word at `PC` (40_cycle.md R111). -/
theorem fetch_of_fetches {s : State} {w : Word} (h : Fetches s w) : fetch s = .ok w := by
  obtain ⟨_, h1, h2⟩ := h
  unfold fetch
  rw [checkReads_none (.inr (by omega))]
  refine congrArg Except.ok (BitVec.eq_of_toNat_eq ?_)
  rw [toNat_wordOfBytes, h2]

/-- A fetch that reaches beyond memory records the first address outside it (40_cycle.md R112). -/
theorem fetch_outside {s : State} (h : 4096 ≤ s.pc.toNat + 1) :
    fetch s = .error ⟨.outOfBounds, max s.pc.toNat 4096⟩ := by
  unfold fetch
  rw [checkReads_some (by omega) (by omega)]

/-- Every running block whose `PC` is at most 4094 fetches some word. -/
theorem exists_fetches {s : State} (h : s.halt = none) (hp : s.pc.toNat + 1 < 4096) : ∃ w, Fetches s w :=
  ⟨wordOfBytes (s.byteAt s.pc.toNat) (s.byteAt (s.pc.toNat + 1)), h, hp, toNat_wordOfBytes _ _⟩

end Sys2Proof.Machine
end

