-- ==== Sys2Proof/Laws/Graphics.lean ====
section
/-! SUPPORT. Drawing: what plotting a bit, a row and a whole sprite does to every pixel and to the collision. -/

namespace Sys2Proof.Machine

/-- Does a sprite row, drawn from column `x0` of display row `py`, have a set bit at (px, qy) among its first m columns? -/
def rowCovers (x0 py m : Nat) (row : Byte) (px qy : Nat) : Bool :=
  decide (qy = py ∧ x0 ≤ px ∧ px < x0 + m) && row.getLsbD (7 - (px - x0))

/-- Pixels on the display have different indexes. -/
theorem pixelIndex_inj {px py qx qy : Nat} (h1 : px < 64) (h2 : qx < 64) :
    pixelIndex px py = pixelIndex qx qy ↔ px = qx ∧ py = qy := by
  simp [pixelIndex]; omega

/-- One plotted bit inverts its own pixel, if that is on the display, and no other. -/
theorem Canvas.pixel_plot (c : Canvas) (px py qx qy : Nat) (hx : qx < 64) (hy : qy < 32) :
    (c.plot px py).disp.getLsbD (pixelIndex qx qy) =
      (c.disp.getLsbD (pixelIndex qx qy) ^^ decide (px = qx ∧ py = qy)) := by
  unfold Canvas.plot
  split
  · rename_i h
    simp [onDisplay] at h
    have hlt : pixelIndex px py < 2048 := by simp [pixelIndex]; omega
    simp only [BitVec.getLsbD_xor, BitVec.getLsbD_twoPow, hlt, decide_true, Bool.true_and]
    congr 1
    simp only [pixelIndex_inj h.1 hx]
  · rename_i h
    simp [onDisplay] at h
    have : ¬ (px = qx ∧ py = qy) := by omega
    simp [this]

/-- One plotted bit reports a collision when its pixel is on the display and was on. -/
theorem Canvas.coll_plot (c : Canvas) (px py : Nat) :
    (c.plot px py).coll = (c.coll || (onDisplay px py && c.disp.getLsbD (pixelIndex px py))) := by
  unfold Canvas.plot; split <;> simp_all

/-- The first m columns of a row: the pixels are inverted where the row has a set bit, and the collision says that one of
them was on. -/
theorem Canvas.drawRow_prefix (c : Canvas) (x0 py : Nat) (row : Byte) (m : Nat) (hm : m ≤ 8) :
    let c' := (List.range m).foldl (fun c k => if spriteBit row k then c.plot (x0 + k) py else c) c
    (∀ qx < 64, ∀ qy < 32, c'.disp.getLsbD (pixelIndex qx qy) =
      (c.disp.getLsbD (pixelIndex qx qy) ^^ rowCovers x0 py m row qx qy)) ∧
    (c'.coll = true ↔ c.coll = true ∨
      ∃ qx < 64, ∃ qy < 32, c.disp.getLsbD (pixelIndex qx qy) = true ∧ rowCovers x0 py m row qx qy = true) := by
  induction m with
  | zero =>
    refine ⟨fun qx hx qy hy => ?_, ?_⟩
    · have : ¬ (qy = py ∧ x0 ≤ qx ∧ qx < x0 + 0) := by omega
      simp only [rowCovers, this]; simp
    · simp [rowCovers]
  | succ m ih =>
    obtain ⟨i1, i2⟩ := ih (by omega)
    simp only [List.range_succ, List.foldl_append, List.foldl_cons, List.foldl_nil] at *
    generalize (List.range m).foldl (fun c k => if spriteBit row k then c.plot (x0 + k) py else c) c = c' at *
    have key : ∀ qx qy, rowCovers x0 py (m+1) row qx qy =
        (rowCovers x0 py m row qx qy || (decide (qy = py ∧ qx = x0 + m) && spriteBit row m)) := by
      intro qx qy
      by_cases e : qy = py ∧ qx = x0 + m
      · obtain ⟨rfl, rfl⟩ := e; simp [rowCovers, spriteBit]
      · by_cases e2 : qy = py ∧ x0 ≤ qx ∧ qx < x0 + m
        · have : qy = py ∧ x0 ≤ qx ∧ qx < x0 + (m+1) := by omega
          have e3 : ¬ qx = x0 + m := by omega
          simp only [rowCovers, e2, e3, this]; simp
        · have : ¬ (qy = py ∧ x0 ≤ qx ∧ qx < x0 + (m+1)) := by omega
          simp [rowCovers, e, e2, this]
    by_cases hb : spriteBit row m = true
    · rw [if_pos hb]
      have hno : rowCovers x0 py m row (x0+m) py = false := by simp [rowCovers]
      refine ⟨fun qx hx qy hy => ?_, ?_⟩
      · rw [Canvas.pixel_plot _ _ _ _ _ hx hy, i1 qx hx qy hy, key, hb, Bool.xor_assoc]
        congr 1
        by_cases e : qy = py ∧ qx = x0 + m
        · obtain ⟨rfl, rfl⟩ := e; simp [hno]
        · have : ¬ (x0 + m = qx ∧ py = qy) := by omega
          simp [e, this]
      · rw [Canvas.coll_plot, Bool.or_eq_true, i2]
        constructor
        · rintro (( h | ⟨qx, hx, qy, hy, h, h'⟩) | h)
          · exact .inl h
          · exact .inr ⟨qx, hx, qy, hy, h, by rw [key, h', Bool.true_or]⟩
          · simp [onDisplay] at h
            refine .inr ⟨_, h.1.1, _, h.1.2, ?_, by rw [key]; simp [hb]⟩
            have := i1 _ h.1.1 _ h.1.2
            rw [hno, Bool.xor_false] at this
            rw [← this, h.2]
        · rintro (h | ⟨qx, hx, qy, hy, h, h'⟩)
          · exact .inl (.inl h)
          · rw [key, Bool.or_eq_true] at h'
            rcases h' with h' | h'
            · exact .inl (.inr ⟨qx, hx, qy, hy, h, h'⟩)
            · simp at h'
              obtain ⟨⟨rfl, rfl⟩, -⟩ := h'
              refine .inr ?_
              simp [onDisplay, hx, hy]
              have := i1 _ hx _ hy
              rw [hno, Bool.xor_false] at this
              rw [this, h]
    · rw [if_neg hb]
      have : ∀ qx qy, rowCovers x0 py (m+1) row qx qy = rowCovers x0 py m row qx qy := by
        intro qx qy; rw [key]; simp [hb]
      simp only [this]
      exact ⟨i1, i2⟩

/-- Do the rows, drawn from column `x0` and display row `py`, have a set bit at (px, qy)? -/
def rowsCover (x0 py : Nat) (rows : List Byte) (px qy : Nat) : Bool :=
  decide (x0 ≤ px ∧ px < x0 + 8 ∧ py ≤ qy ∧ qy < py + rows.length) && ((rows[qy - py]?).getD 0).getLsbD (7 - (px - x0))

/-- The rows cover what the first row covers or the rest covers. -/
theorem rowsCover_cons (x0 py row rows px qy) :
    rowsCover x0 py (row :: rows) px qy =
      (rowCovers x0 py 8 row px qy || rowsCover x0 (py+1) rows px qy) := by
  unfold rowsCover rowCovers
  by_cases h0 : x0 ≤ px ∧ px < x0 + 8
  · by_cases h1 : qy = py
    · subst h1; simp [h0]
    · by_cases h2 : py + 1 ≤ qy
      · have e : qy - py = (qy - (py+1)) + 1 := by omega
        have e2 : py ≤ qy := by omega
        simp only [h0, h1, h2, e2, e, List.length_cons, List.getElem?_cons_succ]
        have : qy < py + (rows.length + 1) ↔ qy < py + 1 + rows.length := by omega
        simp [this]
      · have e2 : ¬ py ≤ qy := by omega
        simp [h1, h2, e2]
  · have : ¬ (x0 ≤ px ∧ px < x0 + 8 ∧ py ≤ qy ∧ qy < py + (row :: rows).length) := by omega
    have h2 : ¬ (x0 ≤ px ∧ px < x0 + 8 ∧ py+1 ≤ qy ∧ qy < py + 1 + (rows).length) := by omega
    have h3 : ¬ (qy = py ∧ x0 ≤ px ∧ px < x0 + 8) := by omega
    simp only [this, h2, h3]; simp

/-- Everything `drawRows` can do: the pixels are inverted where a row has a set bit, and the collision says that one of
them was on. -/
theorem Canvas.drawRows_eq (rows : List Byte) (c : Canvas) (x0 py : Nat) :
    (∀ qx < 64, ∀ qy < 32, (c.drawRows x0 py rows).disp.getLsbD (pixelIndex qx qy) =
      (c.disp.getLsbD (pixelIndex qx qy) ^^ rowsCover x0 py rows qx qy)) ∧
    ((c.drawRows x0 py rows).coll = true ↔ c.coll = true ∨
      ∃ qx < 64, ∃ qy < 32, c.disp.getLsbD (pixelIndex qx qy) = true ∧ rowsCover x0 py rows qx qy = true) := by
  induction rows generalizing c py with
  | nil => simp [Canvas.drawRows, rowsCover]; try omega
  | cons row rows ih =>
    obtain ⟨i1, i2⟩ := ih (c.drawRow x0 py row) (py+1)
    obtain ⟨r1, r2⟩ := Canvas.drawRow_prefix c x0 py row 8 (by omega)
    change (∀ qx < 64, ∀ qy < 32, (c.drawRow x0 py row).disp.getLsbD (pixelIndex qx qy) = _) at r1
    change ((c.drawRow x0 py row).coll = true ↔ _) at r2
    have dj : ∀ qx qy, rowCovers x0 py 8 row qx qy = true → rowsCover x0 (py+1) rows qx qy = false := by
      intro qx qy h; simp [rowCovers] at h; simp [rowsCover]; omega
    simp only [Canvas.drawRows]
    refine ⟨fun qx hx qy hy => ?_, ?_⟩
    · rw [i1 qx hx qy hy, r1 qx hx qy hy, rowsCover_cons, Bool.xor_assoc]
      congr 1
      cases h : rowCovers x0 py 8 row qx qy
      · simp
      · simp [dj _ _ h]
    · rw [i2, r2]
      constructor
      · rintro ((h | ⟨qx, hx, qy, hy, h, h'⟩) | ⟨qx, hx, qy, hy, h, h'⟩)
        · exact .inl h
        · exact .inr ⟨qx, hx, qy, hy, h, by rw [rowsCover_cons, h', Bool.true_or]⟩
        · refine .inr ⟨qx, hx, qy, hy, ?_, by rw [rowsCover_cons, h', Bool.or_true]⟩
          rw [r1 qx hx qy hy] at h
          cases e : rowCovers x0 py 8 row qx qy
          · simpa [e] using h
          · rw [dj _ _ e] at h'; cases h'
      · rintro (h | ⟨qx, hx, qy, hy, h, h'⟩)
        · exact .inl (.inl h)
        · cases e : rowCovers x0 py 8 row qx qy
          · refine .inr ⟨qx, hx, qy, hy, by rw [r1 qx hx qy hy, h, e]; rfl, ?_⟩
            rw [rowsCover_cons, e, Bool.false_or] at h'; exact h'
          · exact .inl (.inr ⟨qx, hx, qy, hy, h, e⟩)

/-- For the rows `Dxyn` reads, that is what the sprite covers. -/
theorem rowsCover_sprite (s : State) (x y n px py) :
    rowsCover (originX (s.reg x)) (originY s.params (s.reg y)) (s.bytesAt s.base n) px py =
      spriteCovers s x y n px py := by
  unfold rowsCover spriteCovers originX originY
  simp only [State.length_bytesAt, Config.dispW]
  by_cases h : (s.reg y).toNat % yModulus s.params.drawYMod ≤ py ∧ py < (s.reg y).toNat % yModulus s.params.drawYMod + n
  · rw [State.getElem?_bytesAt _ _ _ _ (by omega)]; rfl
  · have : ¬ ((s.reg x).toNat % 64 ≤ px ∧ px < (s.reg x).toNat % 64 + 8 ∧
        (s.reg y).toNat % yModulus s.params.drawYMod ≤ py ∧
        py < (s.reg y).toNat % yModulus s.params.drawYMod + n) := by omega
    simp [this]

/-- What `drawSprite` does: every pixel is XORed with what the sprite covers, and `coll` says whether a pixel that was on is
covered. -/
theorem State.drawSprite_eq (s : State) (x y : Reg) (n : Nat) :
    (∀ px < 64, ∀ py < 32, (s.drawSprite x y n).disp.getLsbD (pixelIndex px py) =
      Bool.xor (s.pixelAt px py) (spriteCovers s x y n px py)) ∧
    ((s.drawSprite x y n).coll = true ↔
      ∃ px < 64, ∃ py < 32, s.pixelAt px py = true ∧ spriteCovers s x y n px py = true) := by
  obtain ⟨hp, hc⟩ := Canvas.drawRows_eq (s.bytesAt s.base n) ⟨s.disp, false⟩ (originX (s.reg x))
    (originY s.params (s.reg y))
  simp only [rowsCover_sprite] at hp hc
  exact ⟨hp, by simpa [State.drawSprite, State.pixelAt] using hc⟩

end Sys2Proof.Machine
end

