-- ==== Sys2Proof/Laws/PerInstr.lean ====
section
/-! SUPPORT. For each instruction: its encoded word has the fixed bits of its own row of the opcode map (30_encoding.md R93),
whatever its operands. -/

namespace Sys2Proof.Laws.RowWord

/-- The `match` and `mask` of an instruction's row (30_encoding.md R93). -/
def fixedBits : Instr → Word × Word
  | .cls => (0x00E0, 0xFFFF)
  | .ret => (0x00EE, 0xFFFF)
  | .jp _ => (0x1000, 0xF000)
  | .call _ => (0x2000, 0xF000)
  | .seImm _ _ => (0x3000, 0xF000)
  | .sneImm _ _ => (0x4000, 0xF000)
  | .seReg _ _ => (0x5000, 0xF00F)
  | .ldImm _ _ => (0x6000, 0xF000)
  | .addImm _ _ => (0x7000, 0xF000)
  | .ldReg _ _ => (0x8000, 0xF00F)
  | .orReg _ _ => (0x8001, 0xF00F)
  | .andReg _ _ => (0x8002, 0xF00F)
  | .xorReg _ _ => (0x8003, 0xF00F)
  | .addReg _ _ => (0x8004, 0xF00F)
  | .subReg _ _ => (0x8005, 0xF00F)
  | .shr _ _ => (0x8006, 0xF00F)
  | .subn _ _ => (0x8007, 0xF00F)
  | .shl _ _ => (0x800E, 0xF00F)
  | .sneReg _ _ => (0x9000, 0xF00F)
  | .ldI _ => (0xA000, 0xF000)
  | .jpV0 _ => (0xB000, 0xF000)
  | .rnd _ _ => (0xC000, 0xF000)
  | .drw _ _ _ => (0xD000, 0xF000)
  | .skp _ => (0xE09E, 0xF0FF)
  | .sknp _ => (0xE0A1, 0xF0FF)
  | .ldVxDt _ => (0xF007, 0xF0FF)
  | .ldVxK _ => (0xF00A, 0xF0FF)
  | .ldDtVx _ => (0xF015, 0xF0FF)
  | .ldStVx _ => (0xF018, 0xF0FF)
  | .addI _ => (0xF01E, 0xF0FF)
  | .ldF _ => (0xF029, 0xF0FF)
  | .ldB _ => (0xF033, 0xF0FF)
  | .storeRegs _ => (0xF055, 0xF0FF)
  | .loadRegs _ => (0xF065, 0xF0FF)

/-- Under its row's mask, the encoded word is its row's `match`. -/
def Statement (i : Instr) : Prop := i.wellFormed = true → encode i &&& (fixedBits i).2 = (fixedBits i).1

/-- What each format leaves under each mask. -/
theorem encodeXkk_and_F000 (n0 : BitVec 4) (x : Reg) (kk : Byte) :
    encodeXkk n0 x kk &&& 0xF000 = encodeXkk n0 0 0 := by
  refine BitVec.eq_of_getLsbD_eq fun i hi => ?_
  interval_cases i <;> simp only [BitVec.getLsbD_and, getLsbD_encodeXkk] <;> simp [regBits]

theorem encodeXkk_and_F0FF (n0 : BitVec 4) (x : Reg) (kk : Byte) :
    encodeXkk n0 x kk &&& 0xF0FF = encodeXkk n0 0 kk := by
  refine BitVec.eq_of_getLsbD_eq fun i hi => ?_
  interval_cases i <;> simp only [BitVec.getLsbD_and, getLsbD_encodeXkk] <;> simp [regBits]

theorem encodeXyn_and_F000 (n0 : BitVec 4) (x y : Reg) (n : BitVec 4) :
    encodeXyn n0 x y n &&& 0xF000 = encodeXyn n0 0 0 0 := by
  refine BitVec.eq_of_getLsbD_eq fun i hi => ?_
  interval_cases i <;> simp only [BitVec.getLsbD_and, getLsbD_encodeXyn] <;> simp [regBits]

theorem encodeXyn_and_F00F (n0 : BitVec 4) (x y : Reg) (n : BitVec 4) :
    encodeXyn n0 x y n &&& 0xF00F = encodeXyn n0 0 0 n := by
  refine BitVec.eq_of_getLsbD_eq fun i hi => ?_
  interval_cases i <;> simp only [BitVec.getLsbD_and, getLsbD_encodeXyn] <;> simp [regBits]

theorem encodeNnn_and_F000 (n0 : BitVec 4) (nnn : Addr) : encodeNnn n0 nnn &&& 0xF000 = encodeNnn n0 0 := by
  refine BitVec.eq_of_getLsbD_eq fun i hi => ?_
  interval_cases i <;> simp only [BitVec.getLsbD_and, getLsbD_encodeNnn] <;> simp

theorem cls : Statement .cls := fun _ => rfl
theorem ret : Statement .ret := fun _ => rfl
theorem jp (nnn : Addr) : Statement (.jp nnn) := fun _ => (encodeNnn_and_F000 _ nnn).trans rfl
theorem call (nnn : Addr) : Statement (.call nnn) := fun _ => (encodeNnn_and_F000 _ nnn).trans rfl
theorem seImm (x : Reg) (kk : Byte) : Statement (.seImm x kk) := fun _ => (encodeXkk_and_F000 _ x kk).trans rfl
theorem sneImm (x : Reg) (kk : Byte) : Statement (.sneImm x kk) := fun _ => (encodeXkk_and_F000 _ x kk).trans rfl
theorem seReg (x : Reg) (y : Reg) : Statement (.seReg x y) := fun _ => (encodeXyn_and_F00F _ x y _).trans rfl
theorem ldImm (x : Reg) (kk : Byte) : Statement (.ldImm x kk) := fun _ => (encodeXkk_and_F000 _ x kk).trans rfl
theorem addImm (x : Reg) (kk : Byte) : Statement (.addImm x kk) := fun _ => (encodeXkk_and_F000 _ x kk).trans rfl
theorem ldReg (x : Reg) (y : Reg) : Statement (.ldReg x y) := fun _ => (encodeXyn_and_F00F _ x y _).trans rfl
theorem orReg (x : Reg) (y : Reg) : Statement (.orReg x y) := fun _ => (encodeXyn_and_F00F _ x y _).trans rfl
theorem andReg (x : Reg) (y : Reg) : Statement (.andReg x y) := fun _ => (encodeXyn_and_F00F _ x y _).trans rfl
theorem xorReg (x : Reg) (y : Reg) : Statement (.xorReg x y) := fun _ => (encodeXyn_and_F00F _ x y _).trans rfl
theorem addReg (x : Reg) (y : Reg) : Statement (.addReg x y) := fun _ => (encodeXyn_and_F00F _ x y _).trans rfl
theorem subReg (x : Reg) (y : Reg) : Statement (.subReg x y) := fun _ => (encodeXyn_and_F00F _ x y _).trans rfl
theorem shr (x : Reg) (y : Reg) : Statement (.shr x y) := fun _ => (encodeXyn_and_F00F _ x y _).trans rfl
theorem subn (x : Reg) (y : Reg) : Statement (.subn x y) := fun _ => (encodeXyn_and_F00F _ x y _).trans rfl
theorem shl (x : Reg) (y : Reg) : Statement (.shl x y) := fun _ => (encodeXyn_and_F00F _ x y _).trans rfl
theorem sneReg (x : Reg) (y : Reg) : Statement (.sneReg x y) := fun _ => (encodeXyn_and_F00F _ x y _).trans rfl
theorem ldI (nnn : Addr) : Statement (.ldI nnn) := fun _ => (encodeNnn_and_F000 _ nnn).trans rfl
theorem jpV0 (nnn : Addr) : Statement (.jpV0 nnn) := fun _ => (encodeNnn_and_F000 _ nnn).trans rfl
theorem rnd (x : Reg) (kk : Byte) : Statement (.rnd x kk) := fun _ => (encodeXkk_and_F000 _ x kk).trans rfl
theorem drw (x : Reg) (y : Reg) (n : Nat) : Statement (.drw x y n) := fun _ => (encodeXyn_and_F000 _ x y _).trans rfl
theorem skp (x : Reg) : Statement (.skp x) := fun _ => (encodeXkk_and_F0FF _ x _).trans rfl
theorem sknp (x : Reg) : Statement (.sknp x) := fun _ => (encodeXkk_and_F0FF _ x _).trans rfl
theorem ldVxDt (x : Reg) : Statement (.ldVxDt x) := fun _ => (encodeXkk_and_F0FF _ x _).trans rfl
theorem ldVxK (x : Reg) : Statement (.ldVxK x) := fun _ => (encodeXkk_and_F0FF _ x _).trans rfl
theorem ldDtVx (x : Reg) : Statement (.ldDtVx x) := fun _ => (encodeXkk_and_F0FF _ x _).trans rfl
theorem ldStVx (x : Reg) : Statement (.ldStVx x) := fun _ => (encodeXkk_and_F0FF _ x _).trans rfl
theorem addI (x : Reg) : Statement (.addI x) := fun _ => (encodeXkk_and_F0FF _ x _).trans rfl
theorem ldF (x : Reg) : Statement (.ldF x) := fun _ => (encodeXkk_and_F0FF _ x _).trans rfl
theorem ldB (x : Reg) : Statement (.ldB x) := fun _ => (encodeXkk_and_F0FF _ x _).trans rfl
theorem storeRegs (x : Reg) : Statement (.storeRegs x) := fun _ => (encodeXkk_and_F0FF _ x _).trans rfl
theorem loadRegs (x : Reg) : Statement (.loadRegs x) := fun _ => (encodeXkk_and_F0FF _ x _).trans rfl

end Sys2Proof.Laws.RowWord
end

