-- ==== Sys2Proof/Laws/Step.lean ====
section
/-! SUPPORT. Everything a step can do: which of its four ways it takes, when an instruction halts the block, and that it
always answers a next state. -/

namespace Sys2Proof.Machine

/-- A key skip ends in the halt its key test raises, or in the skip the key decides. -/
theorem skipOnKey_cases {b : Bool} {x : Reg} {s t : State} (h : skipOnKey b x s = .next t) :
    (∃ e, pressed s.params s.key (s.reg x) = .error e ∧ t = s.haltWith e) ∨
    (∃ p, pressed s.params s.key (s.reg x) = .ok p ∧ t = s.skipIf (p == b)) := by
  unfold skipOnKey at h
  split at h
  · rename_i e he; cases h; exact .inl ⟨e, he, rfl⟩
  · rename_i e he; cases h; exact .inr ⟨e, he, rfl⟩

/-- Every instruction answers a next state. -/
theorem exec_next (i : Instr) (s : State) : ∃ t, exec i s = .next t := by
  cases i
  case ldB x => simp only [exec, execLdB]; unfold afterCheck; split <;> exact ⟨_, rfl⟩
  case storeRegs x => simp only [exec, execStoreRegs]; unfold afterCheck; split <;> exact ⟨_, rfl⟩
  case loadRegs x => simp only [exec, execLoadRegs]; unfold afterCheck; split <;> exact ⟨_, rfl⟩
  case drw x y n => simp only [exec, execDrw]; unfold afterCheck; split <;> exact ⟨_, rfl⟩
  case skp x => simp only [exec, execSkp, skipOnKey]; split <;> exact ⟨_, rfl⟩
  case sknp x => simp only [exec, execSknp, skipOnKey]; split <;> exact ⟨_, rfl⟩
  case ldVxK x => simp only [exec, execLdVxK]; split <;> exact ⟨_, rfl⟩
  all_goals exact ⟨_, rfl⟩

/-- Where the word at `PC` is an instruction, the step executes it. -/
theorem step_known {s : State} {w : Word} {i : Instr} (h : Fetches s w) (hd : decode w = .known i) : step s = exec i s := by
  simp [step, h.1, fetch_of_fetches h, hd]

/-- Where the word at `PC` is unknown, the step reports it. -/
theorem step_unknown {s : State} {w u : Word} (h : Fetches s w) (hd : decode w = .unknown u) :
    step s = .next (s.reportUnknown u) := by
  simp [step, h.1, fetch_of_fetches h, hd]

/-- Where the fetch leaves memory, the step halts the block. -/
theorem step_outside {s : State} (h : s.halt = none) (hp : 4096 ≤ s.pc.toNat + 1) :
    step s = .next (s.haltWith ⟨.outOfBounds, max s.pc.toNat 4096⟩) := by
  simp only [step, h, fetch_outside hp]

/-- The four ways of a step: the block is halted, the fetch leaves memory, the word is unknown, the word is an
instruction. -/
theorem step_cases (s : State) :
    (∃ r, s.halt = some r ∧ step s = .next s) ∨
    (s.halt = none ∧ 4096 ≤ s.pc.toNat + 1 ∧ step s = .next (s.haltWith ⟨.outOfBounds, max s.pc.toNat 4096⟩)) ∨
    (∃ w u, Fetches s w ∧ decode w = .unknown u ∧ step s = .next (s.reportUnknown u)) ∨
    (∃ w i, Fetches s w ∧ decode w = .known i ∧ step s = exec i s) := by
  cases h : s.halt with
  | some r => exact .inl ⟨r, rfl, by simp [step, h]⟩
  | none =>
    by_cases hp : 4096 ≤ s.pc.toNat + 1
    · exact .inr (.inl ⟨rfl, hp, step_outside h hp⟩)
    · obtain ⟨w, hw⟩ := exists_fetches h (by omega)
      cases hd : decode w with
      | unknown u => exact .inr (.inr (.inl ⟨w, u, hw, hd, step_unknown hw hd⟩))
      | known i => exact .inr (.inr (.inr ⟨w, i, hw, hd, step_known hw hd⟩))

/-- One state fetches one word. -/
theorem fetches_unique {s : State} {w u : Word} (h : Fetches s w) (h' : Fetches s u) : w = u :=
  BitVec.eq_of_toNat_eq (by rw [h.2.2, h'.2.2])

/-- The checks of an instruction that raise the error `e` in `s`. -/
def HaltCause (i : Instr) (s : State) (e : Raised) : Prop :=
  (∃ x y n, i = .drw x y n ∧ checkReads s.base n = some e) ∨
  (∃ x, i = .ldB x ∧ checkWrites s.params s.base 3 = some e) ∨
  (∃ x, i = .storeRegs x ∧ checkWrites s.params s.base (x.val + 1) = some e) ∨
  (∃ x, i = .loadRegs x ∧ checkReads s.base (x.val + 1) = some e) ∨
  (∃ x, (i = .skp x ∨ i = .sknp x) ∧ pressed s.params s.key (s.reg x) = .error e)

/-- An instruction leaves a running block running, or halts it for an error its checks raise and does nothing else. -/
theorem exec_halt_cases {i : Instr} {s t : State} (hs : s.halt = none) (h : exec i s = .next t) :
    t.halt = none ∨ ∃ e, t = s.haltWith e ∧ HaltCause i s e := by
  cases i
  case ldB x =>
    simp only [exec, execLdB] at h
    rcases afterCheck_cases h with ⟨hc, rfl⟩ | ⟨e, hc, he⟩
    · exact .inl (by simp [hs])
    · exact .inr ⟨e, he, by simp [HaltCause, hc]⟩
  case storeRegs x =>
    simp only [exec, execStoreRegs] at h
    rcases afterCheck_cases h with ⟨hc, rfl⟩ | ⟨e, hc, he⟩
    · exact .inl (by simp [hs])
    · exact .inr ⟨e, he, by simp [HaltCause, hc]⟩
  case loadRegs x =>
    simp only [exec, execLoadRegs] at h
    rcases afterCheck_cases h with ⟨hc, rfl⟩ | ⟨e, hc, he⟩
    · exact .inl (by simp [hs])
    · exact .inr ⟨e, he, by simp [HaltCause, hc]⟩
  case drw x y n =>
    simp only [exec, execDrw] at h
    rcases afterCheck_cases h with ⟨hc, rfl⟩ | ⟨e, hc, he⟩
    · exact .inl (by simp [hs])
    · exact .inr ⟨e, he, by simp [HaltCause, hc]⟩
  case skp x =>
    rcases skipOnKey_cases (b := true) h with ⟨e, h1, he⟩ | ⟨p, _, rfl⟩
    · exact .inr ⟨e, he, by simp [HaltCause, h1]⟩
    · exact .inl (by simp [hs])
  case sknp x =>
    rcases skipOnKey_cases (b := false) h with ⟨e, h1, he⟩ | ⟨p, _, rfl⟩
    · exact .inr ⟨e, he, by simp [HaltCause, h1]⟩
    · exact .inl (by simp [hs])
  case ldVxK x =>
    left
    simp only [exec, execLdVxK] at h
    split at h <;> cases h <;> simp [hs]
  all_goals left; cases h; simp [hs, randomInto]

/-- A step leaves a running block running, or halts it for a fetch outside memory or an instruction's error. -/
theorem step_halt_cases {s t : State} (hs : s.halt = none) (h : step s = .next t) :
    t.halt = none ∨ ∃ e, t = s.haltWith e ∧
      ((4096 ≤ s.pc.toNat + 1 ∧ e = ⟨.outOfBounds, max s.pc.toNat 4096⟩) ∨ ∃ i, Executes s i ∧ HaltCause i s e) := by
  rcases step_cases s with ⟨r, h1, _⟩ | ⟨_, h1, h2⟩ | ⟨w, u, hw, hd, h2⟩ | ⟨w, i, hw, hd, h2⟩
  · rw [hs] at h1; cases h1
  · rw [h2] at h; cases h; exact .inr ⟨_, rfl, .inl ⟨h1, rfl⟩⟩
  · rw [h2] at h; cases h; exact .inl (by simp [hs])
  · rw [h2] at h
    rcases exec_halt_cases hs h with h | ⟨e, he, hh⟩
    · exact .inl h
    · exact .inr ⟨e, he, .inr ⟨i, ⟨w, hw, hd⟩, hh⟩⟩

end Sys2Proof.Machine
end

