-- ==== Sys2Proof/Tests/Slice0.lean ====
section
/-! SUPPORT. The model's own tests. Expected values come from the encodings of 30_encoding.md R93, the examples of the
instruction rules and the vectors of 95_test_vectors.md, named in each theorem's comment. Then, for every statement with
hypotheses, a witness that meets them. -/

namespace Sys2Proof.Tests

open Sys2Proof.Machine

/-! ### Well-formedness: the one check, and an ill-formed term it refuses -/

theorem test_wellFormed_refuses_sixteen_rows : (Instr.drw 0 0 16).wellFormed = false := by decide

theorem test_wellFormed_accepts_fifteen_rows : (Instr.drw 0 0 15).wellFormed = true := by decide

/-! ### Decoding: one word of every constructor, written out from its pattern in 30_encoding.md R93 -/

theorem test_decode_control :
    decode 0b0000000011101110 = .known .ret ∧ decode 0b0001001000110100 = .known (.jp 0x234) ∧
    decode 0b0010111100000001 = .known (.call 0xF01) ∧ decode 0b0011101001000010 = .known (.seImm 10 0x42) ∧
    decode 0b0100101001000010 = .known (.sneImm 10 0x42) ∧ decode 0b0101000111100000 = .known (.seReg 1 14) ∧
    decode 0b1001000111100000 = .known (.sneReg 1 14) ∧ decode 0b1011001000110100 = .known (.jpV0 0x234) := by decide

theorem test_decode_loads_and_random :
    decode 0b0110101001000010 = .known (.ldImm 10 0x42) ∧ decode 0b0111101001000010 = .known (.addImm 10 0x42) ∧
    decode 0b1100101001000010 = .known (.rnd 10 0x42) := by decide

theorem test_decode_family8 :
    decode 0b1000000111100000 = .known (.ldReg 1 14) ∧ decode 0b1000000111100001 = .known (.orReg 1 14) ∧
    decode 0b1000000111100010 = .known (.andReg 1 14) ∧ decode 0b1000000111100011 = .known (.xorReg 1 14) ∧
    decode 0b1000000111100100 = .known (.addReg 1 14) ∧ decode 0b1000000111100101 = .known (.subReg 1 14) ∧
    decode 0b1000000111100110 = .known (.shr 1 14) ∧ decode 0b1000000111100111 = .known (.subn 1 14) ∧
    decode 0b1000000111101110 = .known (.shl 1 14) := by decide

theorem test_decode_display :
    decode 0b0000000011100000 = .known .cls ∧ decode 0b1101000111100101 = .known (.drw 1 14 5) := by decide

theorem test_decode_keys_and_timers :
    decode 0b1110101110011110 = .known (.skp 11) ∧ decode 0b1110101110100001 = .known (.sknp 11) ∧
    decode 0b1111101100000111 = .known (.ldVxDt 11) ∧ decode 0b1111101100001010 = .known (.ldVxK 11) ∧
    decode 0b1111101100010101 = .known (.ldDtVx 11) ∧ decode 0b1111101100011000 = .known (.ldStVx 11) := by decide

theorem test_decode_index_and_memory :
    decode 0b1010001000110100 = .known (.ldI 0x234) ∧ decode 0b1111101100011110 = .known (.addI 11) ∧
    decode 0b1111101100101001 = .known (.ldF 11) ∧ decode 0b1111101100110011 = .known (.ldB 11) ∧
    decode 0b1111101101010101 = .known (.storeRegs 11) ∧ decode 0b1111101101100101 = .known (.loadRegs 11) := by decide

/-- Vectors F-5 to F-13: words of every family with gaps that are unknown. -/
theorem test_decode_unknown :
    decode 0x0123 = .unknown 0x0123 ∧ decode 0x0000 = .unknown 0x0000 ∧ decode 0x00E1 = .unknown 0x00E1 ∧
    decode 0x5121 = .unknown 0x5121 ∧ decode 0x9121 = .unknown 0x9121 ∧ decode 0x8008 = .unknown 0x8008 ∧
    decode 0x800F = .unknown 0x800F ∧ decode 0xE000 = .unknown 0xE000 ∧ decode 0xF0FF = .unknown 0xF0FF := by decide

/-- 30_encoding.md R90: an instruction is two bytes, the byte at the lower address first. -/
theorem test_decodeBytes :
    decodeBytes [0x12, 0x34, 0x56] = .ok (.jp 0x234, [0x56]) ∧ decodeBytes [0x12] = .error (.truncated [0x12]) ∧
    decodeBytes [0xFF, 0xFF] = .error (.unknownOpcode 0xFFFF) := by
  refine ⟨rfl, rfl, rfl⟩

theorem test_decodeTableWord :
    decodeTableWord 16 0xF165 = some (.loadRegs 1) ∧ decodeTableWord 16 0xFFFF = none := by decide

/-! ### One step on a small state -/

/-- V registers: the listed ones as listed, the others 0. -/
def regs (entries : List (Reg × Byte)) : Vector Byte 16 :=
  entries.foldl (fun v e => v.set e.1.val e.2) (Vector.replicate 16 0)

/-- The reset state with these V registers. -/
def withRegs (entries : List (Reg × Byte)) : State := { State.reset with v := regs entries }

/-- The state an answer goes to; the state `s` for a stop. -/
def stateOf (s : State) : Answer → State
  | .next t => t
  | .fault _ => s
  | .refused _ => s

/-- The state after one step on the word `w`, placed where `s` fetches. -/
def after (w : Nat) (s : State) : State := stateOf s (step (s.withFetchWord 16 w))

/-- The default parameters with another write policy below 512. -/
def withLowPolicy (policy : WritePolicy) (s : State) : State :=
  { s with params := { s.params with lowWritePolicy := policy } }

/-- Vector F-1: the last full word of memory is fetched. -/
theorem test_fetch_last_word :
    (after 0x6012 { State.reset with pc := 0xFFE }).reg 0 = 0x12 ∧
    (after 0x6012 { State.reset with pc := 0xFFE }).pc = 0x1000 := by decide

/-- Vector F-2: the fetch at 4095 halts with the one byte that exists. -/
theorem test_fetch_at_4095 :
    (stateOf State.reset (step { State.reset with pc := 0xFFF, mem := [(0xFFF, 0xAB)] })).halt =
      some ⟨.outOfBounds, 0xFFF, 0x1000, [0xAB]⟩ := by decide

/-- Vector F-3: the fetch at 4096 halts with no byte. -/
theorem test_fetch_at_4096 :
    (stateOf State.reset (step { State.reset with pc := 0x1000 })).halt = some ⟨.outOfBounds, 0x1000, 0x1000, []⟩ := by
  decide

/-- Vector F-7. -/
theorem test_unknown_word :
    (after 0x00E1 State.reset).diag = [⟨0x200, 0x00E1⟩] ∧ (after 0x00E1 State.reset).pc = 0x202 ∧
    (after 0x00E1 State.reset).halt = none := by decide

/-- Vector C-1. -/
theorem test_ret :
    (after 0x00EE { State.reset with sp := 1, stack := State.reset.stack.set 0 0x206 }).pc = 0x206 ∧
    (after 0x00EE { State.reset with sp := 1, stack := State.reset.stack.set 0 0x206 }).sp = 0 := by decide

/-- Vector C-2: the pop of an empty stack wraps. -/
theorem test_ret_wraps :
    (after 0x00EE { State.reset with stack := Vector.replicate 16 0x345 }).pc = 0x345 ∧
    (after 0x00EE { State.reset with stack := Vector.replicate 16 0x345 }).sp = 15 := by decide

/-- Vector C-5. -/
theorem test_jp : (after 0x1234 State.reset).pc = 0x234 := by decide

/-- Vector C-3. -/
theorem test_call :
    (after 0x2300 { State.reset with pc := 0x204 }).slot 0 = 0x206 ∧
    (after 0x2300 { State.reset with pc := 0x204 }).sp = 1 ∧
    (after 0x2300 { State.reset with pc := 0x204 }).pc = 0x300 := by decide

/-- Vector C-4: the push onto a full stack wraps. -/
theorem test_call_wraps :
    (after 0x2300 { State.reset with pc := 0x204, sp := 15 }).slot 15 = 0x206 ∧
    (after 0x2300 { State.reset with pc := 0x204, sp := 15 }).sp = 0 := by decide

/-- Vectors C-8 and C-9. -/
theorem test_seImm :
    (after 0x3342 (withRegs [(3, 0x42)])).pc = 0x204 ∧ (after 0x3341 (withRegs [(3, 0x42)])).pc = 0x202 := by decide

/-- Vector C-16: a skip past the end of memory is not checked. -/
theorem test_seImm_leaves_memory : (after 0x3000 { State.reset with pc := 0xFFE }).pc = 0x1002 := by decide

/-- Vectors C-10 and C-11. -/
theorem test_sneImm :
    (after 0x4341 (withRegs [(3, 0x42)])).pc = 0x204 ∧ (after 0x4342 (withRegs [(3, 0x42)])).pc = 0x202 := by decide

/-- Vectors C-12 and C-13. -/
theorem test_seReg :
    (after 0x5120 (withRegs [(1, 7), (2, 7)])).pc = 0x204 ∧ (after 0x5120 (withRegs [(1, 7), (2, 8)])).pc = 0x202 := by
  decide

/-- Vectors C-14 and C-15. -/
theorem test_sneReg :
    (after 0x9120 (withRegs [(1, 7), (2, 8)])).pc = 0x204 ∧ (after 0x9110 (withRegs [(1, 7)])).pc = 0x202 := by decide

/-- Vectors C-17 and C-19. -/
theorem test_jpV0 :
    (after 0xB300 (withRegs [(0, 0x10)])).pc = 0x310 ∧ (after 0xBFFF (withRegs [(0, 0xFF)])).pc = 0x10FE := by decide

/-- Vectors A-1 and A-2. -/
theorem test_ldImm :
    (after 0x6005 State.reset).reg 0 = 0x05 ∧ (after 0x6F42 (withRegs [(15, 1)])).reg 15 = 0x42 := by decide

/-- Vector A-3: no flag. -/
theorem test_addImm :
    (after 0x7001 (withRegs [(0, 0xFF), (15, 7)])).reg 0 = 0 ∧
    (after 0x7001 (withRegs [(0, 0xFF), (15, 7)])).reg 15 = 7 := by decide

/-- Vectors A-6 and A-7. -/
theorem test_ldReg :
    (after 0x8120 (withRegs [(2, 9)])).reg 1 = 9 ∧ (after 0x8F10 (withRegs [(1, 9), (15, 1)])).reg 15 = 9 := by decide

/-- Vector A-28. -/
theorem test_orReg :
    (after 0x8121 (withRegs [(1, 0x0C), (2, 0x0A), (15, 1)])).reg 1 = 0x0E ∧
    (after 0x8121 (withRegs [(1, 0x0C), (2, 0x0A), (15, 1)])).reg 15 = 0 := by decide

/-- Vector A-31: the clear is the last write. -/
theorem test_orReg_into_VF : (after 0x8F11 (withRegs [(1, 0x80), (15, 1)])).reg 15 = 0 := by decide

/-- Vector A-29. -/
theorem test_andReg :
    (after 0x8122 (withRegs [(1, 0x0C), (2, 0x0A), (15, 1)])).reg 1 = 0x08 ∧
    (after 0x8122 (withRegs [(1, 0x0C), (2, 0x0A), (15, 1)])).reg 15 = 0 := by decide

/-- Vector A-30. -/
theorem test_xorReg :
    (after 0x8123 (withRegs [(1, 0x0C), (2, 0x0A), (15, 1)])).reg 1 = 0x06 ∧
    (after 0x8123 (withRegs [(1, 0x0C), (2, 0x0A), (15, 1)])).reg 15 = 0 := by decide

/-- Vectors A-9 and A-10: a sum of 255 and a sum of 256. -/
theorem test_addReg :
    (after 0x8014 (withRegs [(0, 0xF0), (1, 0x0F), (15, 9)])).reg 15 = 0 ∧
    (after 0x8014 (withRegs [(0, 0xF0), (1, 0x10)])).reg 0 = 0 ∧
    (after 0x8014 (withRegs [(0, 0xF0), (1, 0x10)])).reg 15 = 1 := by decide

/-- Vectors A-12 and A-13: VF as destination and as source. -/
theorem test_addReg_VF :
    (after 0x8F14 (withRegs [(15, 0x80), (1, 0x80)])).reg 15 = 1 ∧
    (after 0x80F4 (withRegs [(0, 1), (15, 0xFF)])).reg 0 = 0 := by decide

/-- Vectors A-14 and A-15. -/
theorem test_subReg :
    (after 0x8015 (withRegs [(0, 10), (1, 251), (15, 9)])).reg 0 = 0x0F ∧
    (after 0x8015 (withRegs [(0, 10), (1, 251), (15, 9)])).reg 15 = 0 ∧
    (after 0x8015 (withRegs [(0, 7), (1, 7)])).reg 15 = 1 := by decide

/-- Vector A-17: the flag is the last write. -/
theorem test_subReg_VF : (after 0x8F15 (withRegs [(15, 3), (1, 5)])).reg 15 = 0 := by decide

/-- Vectors A-19 and A-21: Vx is not read, VF as source is read before it is written. -/
theorem test_shr :
    (after 0x8126 (withRegs [(1, 0xFF), (2, 4), (15, 9)])).reg 1 = 2 ∧
    (after 0x8126 (withRegs [(1, 0xFF), (2, 4), (15, 9)])).reg 15 = 0 ∧
    (after 0x81F6 (withRegs [(15, 0x81)])).reg 1 = 0x40 := by decide

/-- Vector A-20: the result is the last write. -/
theorem test_shr_VF : (after 0x8F26 (withRegs [(2, 5)])).reg 15 = 2 := by decide

/-- Vectors A-22 and A-23. -/
theorem test_subn :
    (after 0x8127 (withRegs [(1, 5), (2, 3), (15, 9)])).reg 1 = 0xFE ∧
    (after 0x8127 (withRegs [(1, 5), (2, 3), (15, 9)])).reg 15 = 0 ∧
    (after 0x8127 (withRegs [(1, 3), (2, 5)])).reg 15 = 1 := by decide

/-- Vector A-25. -/
theorem test_shl :
    (after 0x812E (withRegs [(2, 0x81)])).reg 1 = 2 ∧ (after 0x812E (withRegs [(2, 0x81)])).reg 15 = 1 := by decide

/-- Vector A-27: the result is the last write. -/
theorem test_shl_VF : (after 0x8F2E (withRegs [(2, 0x81)])).reg 15 = 2 := by decide

/-- Vectors A-33 and A-34, with the byte the port supplies named. -/
theorem test_rnd :
    (randomInto 0xA7 0 0x0F State.reset).reg 0 = 0x07 ∧ (randomInto 0xA7 5 0x00 State.reset).reg 5 = 0 ∧
    (randomInto 0xA7 0 0x0F State.reset).pc = 0x202 := by decide

/-- Vector M-1. -/
theorem test_ldI : (after 0xA300 State.reset).i = 0x300 := by decide

/-- Vectors M-2 and M-3. -/
theorem test_addI :
    (after 0xF11E { withRegs [(1, 2), (15, 5)] with i := 0xFFF }).i = 0x1001 ∧
    (after 0xF11E { withRegs [(1, 2), (15, 5)] with i := 0xFFF }).reg 15 = 5 ∧
    (after 0xF11E { withRegs [(1, 1)] with i := 0xFFFF }).i = 0 := by decide

/-- Vectors M-5 and M-6. -/
theorem test_ldF :
    (after 0xF229 (withRegs [(2, 0x1A)])).i = 0x32 ∧ (after 0xF229 (withRegs [(2, 0xFF)])).i = 0x4B := by decide

/-- Vectors M-12 and M-15. -/
theorem test_ldB :
    (after 0xF033 { withRegs [(0, 254)] with i := 0x300 }).bytesAt 0x300 3 = [2, 5, 4] ∧
    (after 0xF033 { withRegs [(0, 1)] with i := 0x4E }).halt = some ⟨.protectedWrite, 0x200, 0x4E, [0xF0, 0x33]⟩ := by
  decide

/-- Vectors M-17 and M-18: the policies `ignore` and `write`. -/
theorem test_ldB_policies :
    (after 0xF033 (withLowPolicy .ignore { withRegs [(0, 123)] with i := 0x1FF, pc := 0x300 })).bytesAt 0x1FF 3 =
      [0, 2, 3] ∧
    (after 0xF033 (withLowPolicy .write { withRegs [(0, 123)] with i := 0x1FF, pc := 0x300 })).bytesAt 0x1FF 3 =
      [1, 2, 3] := by decide

/-- Vector M-19. -/
theorem test_storeRegs :
    (after 0xF155 { withRegs [(0, 1), (1, 2), (2, 3)] with i := 0x300 }).bytesAt 0x300 3 = [1, 2, 0] ∧
    (after 0xF155 { withRegs [(0, 1), (1, 2)] with i := 0x300 }).i = 0x302 := by decide

/-- Vector M-22: all checks come before the first write. -/
theorem test_storeRegs_halts :
    (after 0xF255 { withRegs [(0, 1)] with i := 0xFFE }).halt = some ⟨.outOfBounds, 0x200, 0x1000, [0xF2, 0x55]⟩ ∧
    (after 0xF255 { withRegs [(0, 1)] with i := 0xFFE }).bytesAt 0xFFE 2 = [0, 0] := by decide

/-- Vector M-25: glyph 0 of the default font. -/
theorem test_loadRegs :
    (after 0xF465 State.reset).v.toList.take 6 = [0xF0, 0x90, 0x90, 0x90, 0xF0, 0] ∧ (after 0xF465 State.reset).i = 5 := by
  decide

/-- Vector M-29: the address does not wrap. -/
theorem test_loadRegs_halts :
    (after 0xF165 { State.reset with i := 0xFFFF }).halt = some ⟨.outOfBounds, 0x200, 0xFFFF, [0xF1, 0x65]⟩ := by decide

/-- Vector D-12. -/
theorem test_cls :
    (after 0x00E0 { State.reset with disp := 5 }).disp = 0 ∧ (after 0x00E0 State.reset).draw = true := by decide +kernel

/-- The columns of row `py` that are on. -/
def columnsOn (s : State) (py : Nat) : List Nat := (List.range 64).filter (fun px => s.pixelAt px py)

/-- Vectors D-2 and D-9: the clipped sprite of `C3` at column 62; the origin read from VF. -/
theorem test_drw :
    columnsOn (after 0xD011 { withRegs [(0, 62)] with i := 0x300, mem := [(0x300, 0xC3)] }) 0 = [62, 63] ∧
    columnsOn (after 0xDF01 { withRegs [(0, 2), (15, 3)] with i := 0x300, mem := [(0x300, 0x80)] }) 2 = [3] := by
  decide +kernel

/-- Vectors D-10 and D-8: the collision; the halt at the row outside memory. -/
theorem test_drw_collides_and_halts :
    (after 0xD011 { State.reset with i := 0x300, mem := [(0x300, 0xC3)], disp := 0xC3 }).disp = 0 ∧
    (after 0xD011 { State.reset with i := 0x300, mem := [(0x300, 0xC3)], disp := 0xC3 }).reg 15 = 1 ∧
    (after 0xD012 { State.reset with i := 0xFFF }).halt = some ⟨.outOfBounds, 0x200, 0x1000, [0xD0, 0x12]⟩ := by
  decide +kernel

/-- Vectors K-1 and K-7. -/
theorem test_skp :
    (after 0xE19E { withRegs [(1, 5)] with key := 0x0020 }).pc = 0x204 ∧
    (after 0xE19E { withRegs [(1, 21)] with
      key := 0x0020, params := { defaultParams with keyIndexPolicy := .mod16 } }).pc = 0x204 := by decide

/-- Vectors K-5 and K-8. -/
theorem test_skp_key_number :
    (after 0xE19E { withRegs [(1, 16)] with key := 0xFFFF }).pc = 0x202 ∧
    (after 0xE19E { withRegs [(1, 16)] with
      key := 0x0020, params := { defaultParams with keyIndexPolicy := .fault } }).halt =
        some ⟨.keyIndex, 0x200, 0x10, [0xE1, 0x9E]⟩ := by decide

/-- Vectors K-3, K-4 and K-6. -/
theorem test_sknp :
    (after 0xE1A1 { withRegs [(1, 4)] with key := 0x0020 }).pc = 0x204 ∧
    (after 0xE1A1 { withRegs [(1, 5)] with key := 0x0020 }).pc = 0x202 ∧
    (after 0xE1A1 { withRegs [(1, 16)] with key := 0xFFFF }).pc = 0x204 := by decide

/-- Vector K-11: the lowest released key. -/
theorem test_ldVxK :
    (after 0xF30A { State.reset with keyp := 0x00A0 }).reg 3 = 5 ∧
    (after 0xF30A { State.reset with keyp := 0x00A0 }).pc = 0x202 := by decide

/-- Vectors K-10 and K-12: a held key and a press are no release. -/
theorem test_ldVxK_waits :
    (after 0xF30A { State.reset with keyp := 0x0020, key := 0x0020 }).pc = 0x200 ∧
    (after 0xF30A { State.reset with key := 0x0001 }).pc = 0x200 := by decide

/-- Vector K-14. -/
theorem test_ldVxDt : (after 0xF507 { State.reset with dt := 0x3C }).reg 5 = 0x3C := by decide

/-- Vector K-15. -/
theorem test_ldDtVx : (after 0xF515 (withRegs [(5, 0x3C)])).dt = 0x3C := by decide

/-- Vector K-16. -/
theorem test_ldStVx :
    (after 0xF618 (withRegs [(6, 2)])).st = 2 ∧ (after 0xF618 (withRegs [(6, 2)])).soundOn = true := by decide

/-! ### Host actions and construction -/

/-- Vectors K-17 and K-18. -/
theorem test_tick :
    (stateOf State.reset (act .tick { State.reset with dt := 2 })).dt = 1 ∧
    (stateOf State.reset (act .tick { State.reset with st := 1 })).soundOn = false := by decide

/-- Vector K-19. -/
theorem test_keyEdit :
    (stateOf State.reset (act (.keyEdit 0) { State.reset with key := 0x0020, keyp := 0x0001 })).keyp = 0x0020 ∧
    (stateOf State.reset (act (.keyEdit 0) { State.reset with key := 0x0020, keyp := 0x0001 })).key = 0 := by decide

/-- Vector K-23. -/
theorem test_repaintQuery :
    ({ State.reset with draw := true } : State).repaintQuery.1 = true ∧
    ({ State.reset with draw := true } : State).repaintQuery.2.draw = false := by decide

/-- Vector R-2. -/
theorem test_construct_refuses_a_long_image :
    construct defaultParams (fun _ => 0) (fun _ => 0) (Vector.replicate 16 0) (List.replicate 3585 0) =
      .fault .loadError :=
  if_pos (by rw [List.length_replicate]; decide)

/-- The reset state's memory has the canonical form, and `PC` is the entry point (10_state.md R42). -/
theorem test_reset : State.reset.mem.wf ∧ State.reset.pc = 0x200 ∧ State.reset.byteAt 79 = 0x80 := by decide

/-! ### Witnesses: for each statement with hypotheses, operands and a state that meet them -/

/-- A running state whose next word is `w`. -/
def loaded (w : Nat) (s : State) : State := s.withFetchWord 16 w

/-- A state that returns from the last full word of memory, with the highest return address the invariant allows. -/
def edgeState : State := loaded 0x00EE { State.reset with pc := 0xFFE, stack := Vector.replicate 16 4096 }

theorem witness_DecodeInvertsEncode : (Instr.drw 15 15 15).wellFormed = true ∧ (Instr.drw 0 0 0).wellFormed = true := by
  decide

theorem witness_EncodeInvertsDecode : decode 0xDFFF = .known (.drw 15 15 15) ∧ decode 0x0FFF = .unknown 0x0FFF := by decide

theorem witness_DecoderFollowsTheOpcodeMap :
    (⟨0xF065, 0xF0FF, fun w => .loadRegs (fieldX w)⟩ : OpcodeRow) ∈ opcodeMap ∧
    (0xFF65 : Word) &&& 0xF0FF = 0xF065 ∧ decode 0xFF65 = .known (.loadRegs 15) := by
  refine ⟨?_, by decide, by decide⟩
  simp only [opcodeMap, opcodeRowsTo34, List.mem_append, List.mem_cons, true_or, or_true]

/-- One unknown word for each clause, at the edges of its range. -/
theorem witness_UnknownWordsByFamily :
    decode 0x00DF = .unknown 0x00DF ∧ decode 0x0FFF = .unknown 0x0FFF ∧ decode 0x5001 = .unknown 0x5001 ∧
    decode 0x8FFD = .unknown 0x8FFD ∧ decode 0x9FFF = .unknown 0x9FFF ∧ decode 0xEFA2 = .unknown 0xEFA2 ∧
    decode 0xFF66 = .unknown 0xFF66 := by decide

theorem witness_StepExecutesTheDecodedInstruction :
    Fetches edgeState 0x00EE ∧ decode 0x00EE = .known .ret := ⟨⟨rfl, by decide, by decide⟩, by decide⟩

theorem witness_UnknownWordReportedAndSkipped : Fetches State.reset 0x0000 ∧ decode 0x0000 = .unknown 0x0000 :=
  ⟨⟨rfl, by decide, by decide⟩, by decide⟩

/-- Both clauses at the values where they meet: 4095 and 4096. -/
theorem witness_FetchOutsideMemoryHalts :
    ({ State.reset with pc := 0xFFF } : State).halt = none ∧ 4096 ≤ (0xFFF : Word).toNat + 1 ∧
    (0xFFF : Word).toNat = 4095 ∧ 4096 ≤ (0x1000 : Word).toNat := by decide

theorem witness_HaltedBlockIsFrozen :
    (stateOf State.reset (step { State.reset with pc := 0x1000 })).halt = some ⟨.outOfBounds, 0x1000, 0x1000, []⟩ := by
  decide

/-- Each of the three fatal kinds, raised by a step of a running state. -/
theorem witness_FatalErrorsArePrecise :
    (∃ t, step (loaded 0xF065 { State.reset with i := 0x1000 }) = .next t ∧
      t.halt = some ⟨.outOfBounds, 0x200, 0x1000, [0xF0, 0x65]⟩) ∧
    (∃ t, step (loaded 0xF055 { State.reset with i := 511 }) = .next t ∧
      t.halt = some ⟨.protectedWrite, 0x200, 511, [0xF0, 0x55]⟩) ∧
    (∃ t, step (loaded 0xE09E { withRegs [(0, 255)] with
        params := { defaultParams with keyIndexPolicy := .fault } }) = .next t ∧
      t.halt = some ⟨.keyIndex, 0x200, 255, [0xE0, 0x9E]⟩) :=
  ⟨⟨_, rfl, by decide⟩, ⟨_, rfl, by decide⟩, ⟨_, rfl, by decide⟩⟩

/-- A state for each clause, at its lowest raising value, and the highest that does not raise. -/
theorem witness_OutOfBoundsRaisedExactlyWhen :
    (∃ t, step { State.reset with pc := 4095 } = .next t ∧ t.halt.map FaultRecord.addr = some 4096) ∧
    (Executes (loaded 0xD002 { State.reset with i := 4095 }) (.drw 0 0 2) ∧ 4096 ≤ (4095 : Word).toNat + 2 - 1) ∧
    (Executes (loaded 0xF033 { State.reset with i := 4094 }) (.ldB 0) ∧ 4096 ≤ (4094 : Word).toNat + 2) ∧
    (Executes (loaded 0xFF55 { State.reset with i := 4081 }) (.storeRegs 15) ∧ 4096 ≤ (4081 : Word).toNat + 15) ∧
    (Executes (loaded 0xFF65 { State.reset with i := 4081 }) (.loadRegs 15) ∧ 4096 ≤ (4081 : Word).toNat + 15) ∧
    (∃ t, step (loaded 0xFF65 { State.reset with i := 4080 }) = .next t ∧ t.halt = none) :=
  ⟨⟨_, rfl, by decide⟩, ⟨⟨0xD002, ⟨rfl, by decide, by decide⟩, by decide⟩, by decide⟩,
    ⟨⟨0xF033, ⟨rfl, by decide, by decide⟩, by decide⟩, by decide⟩,
    ⟨⟨0xFF55, ⟨rfl, by decide, by decide⟩, by decide⟩, by decide⟩,
    ⟨⟨0xFF65, ⟨rfl, by decide, by decide⟩, by decide⟩, by decide⟩, ⟨_, rfl, by decide⟩⟩

/-- Both regions and both instructions, at the edges of the regions. -/
theorem witness_ProtectedWriteRaisedExactlyWhen :
    (Executes (loaded 0xF033 { State.reset with i := 79 }) (.ldB 0) ∧ defaultParams.fontWritePolicy = .fault) ∧
    (Executes (loaded 0xF055 { State.reset with i := 511 }) (.storeRegs 0) ∧ defaultParams.lowWritePolicy = .fault) ∧
    (∃ t, step (loaded 0xF055 { State.reset with i := 511 }) = .next t ∧
      t.halt.map FaultRecord.kind = some .protectedWrite) ∧
    (∃ t, step (loaded 0xF055 { State.reset with i := 512 }) = .next t ∧ t.halt = none) :=
  ⟨⟨⟨0xF033, ⟨rfl, by decide, by decide⟩, by decide⟩, by decide⟩,
    ⟨⟨0xF055, ⟨rfl, by decide, by decide⟩, by decide⟩, by decide⟩, ⟨_, rfl, by decide⟩, ⟨_, rfl, by decide⟩⟩

/-- Key number 16 raises under `fault`, 15 does not. -/
theorem witness_KeyIndexRaisedExactlyWhen :
    (∃ t, step (loaded 0xE0A1 { withRegs [(0, 16)] with
        params := { defaultParams with keyIndexPolicy := .fault } }) = .next t ∧
      t.halt.map FaultRecord.kind = some .keyIndex) ∧
    (∃ t, step (loaded 0xE0A1 { withRegs [(0, 15)] with
        params := { defaultParams with keyIndexPolicy := .fault } }) = .next t ∧ t.halt = none) :=
  ⟨⟨_, rfl, by decide⟩, ⟨_, rfl, by decide⟩⟩

/-- A safe state other than reset: memory is listed, every return address is the highest allowed. -/
theorem edgeState_safe : Safe edgeState where
  memCanonical := by decide
  haltFits := fun _ h => by cases h
  pcInRange := ⟨by decide, by decide⟩

theorem witness_StepKeepsSafe : Safe edgeState ∧ ∃ t, step edgeState = .next t ∧ t.pc = 4096 :=
  ⟨edgeState_safe, _, rfl, by decide⟩

theorem witness_EveryRunKeepsSafe :
    Safe edgeState ∧ ∃ t, runActions [.step, .tick, .step, .keyEdit 1] edgeState = .next t ∧ t.halt ≠ none :=
  ⟨edgeState_safe, _, rfl, by decide⟩

/-- Under `ignore` a run that writes across the border at 512 meets the hypotheses; the last protected byte is 511. -/
theorem witness_LowMemoryIsNeverWritten :
    (withLowPolicy .ignore State.reset).params.fontWritePolicy ≠ .write ∧
    (withLowPolicy .ignore State.reset).params.lowWritePolicy ≠ .write ∧
    ∃ t, runActions [.step] (loaded 0xF155 (withLowPolicy .ignore { withRegs [(0, 1), (1, 2)] with i := 511, pc := 0x300 })) =
      .next t ∧ t.bytesAt 511 2 = [0, 2] := ⟨by decide, by decide, _, rfl, by decide⟩

/-- An instruction that completes and one that halts. -/
theorem witness_EachInstructionWritesOnlyItsOwnState :
    (∃ t, exec (.loadRegs 15) State.reset = .next t ∧ t.reg 15 = 0xF0) ∧
    (∃ t, exec (.ldB 0) State.reset = .next t ∧ t.halt ≠ none) := ⟨⟨_, rfl, by decide⟩, ⟨_, rfl, by decide⟩⟩

theorem witness_ProgramCounterPolicy :
    (∃ t, step (loaded 0x3000 State.reset) = .next t ∧ t.halt = none ∧
      Executes (loaded 0x3000 State.reset) (.seImm 0 0)) ∧
    (∃ t, step State.reset = .next t ∧ t.halt = none ∧ Fetches State.reset 0 ∧ decode 0 = .unknown 0) :=
  ⟨⟨_, rfl, by decide, 0x3000, ⟨rfl, by decide, by decide⟩, by decide⟩,
    ⟨_, rfl, by decide, ⟨rfl, by decide, by decide⟩, by decide⟩⟩

/-- The jump to itself, at the entry point. -/
theorem witness_JumpSetsThePc : (0x200 : Addr).toNat = State.reset.pc.toNat := by decide

/-- The state right after the call meets the hypotheses on the state that returns; also when `SP` wraps. -/
theorem witness_CallThenReturn :
    ∃ t, exec (.call 0x300) { State.reset with sp := 15 } = .next t ∧ t.sp = 0 ∧ t.slot 15 = 0x202 :=
  ⟨_, rfl, by decide, by decide⟩

theorem witness_SkipsOnAnImmediate : State.reset.reg 15 = 0 ∧ State.reset.reg 15 ≠ 255 := by decide

theorem witness_SkipsOnRegisters :
    (withRegs [(1, 7), (2, 7), (3, 8)]).reg 1 = (withRegs [(1, 7), (2, 7), (3, 8)]).reg 2 ∧
    (withRegs [(1, 7), (2, 7), (3, 8)]).reg 1 ≠ (withRegs [(1, 7), (2, 7), (3, 8)]).reg 3 := by decide

/-- The hypothesis `x ≠ VF` of the result clause, at both ends of its range; VF is the other form. -/
theorem witness_BitwiseOperationsClearVF : (0 : Reg) ≠ VF ∧ (14 : Reg) ≠ VF := by decide

theorem witness_AddSetsTheCarry : (0 : Reg) ≠ VF ∧ (14 : Reg) ≠ VF := by decide

theorem witness_SubtractionsSetNotBorrow : (0 : Reg) ≠ VF ∧ (14 : Reg) ≠ VF := by decide

theorem witness_ShiftsReadVyAndCaptureTheBit : (0 : Reg) ≠ VF ∧ (14 : Reg) ≠ VF := by decide

/-- All three bytes writable at both ends of the program region; all three dropped or written across 80 and 512 under
`ignore`; the first byte not writable at each place in the triple. -/
theorem witness_StoreDecimalDigits :
    (∀ k < 3, Writable { State.reset with i := 512 } (512 + k) ∧ ¬ Dropped { State.reset with i := 512 } (512 + k)) ∧
    (∀ k < 3, Writable State.reset (4093 + k)) ∧
    (∀ k < 3, Writable (withLowPolicy .ignore State.reset) (511 + k)) ∧
    (Dropped (withLowPolicy .ignore State.reset) 511 ∧ ¬ Dropped (withLowPolicy .ignore State.reset) 512) ∧
    ((∀ j < 2, Writable State.reset (4094 + j)) ∧ ¬ Writable State.reset (4094 + 2)) ∧
    (¬ Writable State.reset 511 ∧ writeErrorKind 511 = .protectedWrite ∧ writeErrorKind 4096 = .outOfBounds) := by
  unfold Writable Dropped
  and_intros <;> decide

/-- Sixteen writable bytes at both ends of the program region; the first byte not writable at the last place. -/
theorem witness_StoreRegisterBlock :
    (∀ k ≤ 15, Writable State.reset (512 + k) ∧ ¬ Dropped State.reset (512 + k)) ∧
    (∀ k ≤ 15, Writable State.reset (4080 + k)) ∧
    (Dropped (withLowPolicy .ignore State.reset) 511 ∧ Writable (withLowPolicy .ignore State.reset) 511) ∧
    ((∀ j < 15, Writable State.reset (4081 + j)) ∧ ¬ Writable State.reset (4081 + 15)) := by
  unfold Writable Dropped
  and_intros <;> decide

/-- The two clauses meet at 4095 and 4096. -/
theorem witness_LoadRegisterBlock :
    ({ State.reset with i := 4080 } : State).base + (15 : Reg).val < 4096 ∧
    4096 ≤ ({ State.reset with i := 4081 } : State).base + (15 : Reg).val := by decide

/-- Sixteen bytes to store; the state right after the store, with `I` set back, meets the hypotheses on the loading state. -/
theorem witness_StoreThenLoadRestoresRegisters :
    (∀ k ≤ 15, Writable State.reset (4080 + k) ∧ ¬ Dropped State.reset (4080 + k)) ∧
    ∃ t, exec (.storeRegs 15) { State.reset with i := 4080 } = .next t ∧ (t.setI 4080).i = 4080 ∧
      ∀ k ≤ 15, (t.setI 4080).byteAt (4080 + k) = t.byteAt (4080 + k) := by
  refine ⟨?_, _, rfl, by decide, by decide⟩
  unfold Writable Dropped
  decide

/-- No rows; the last row at 4095; the last row at 4096. -/
theorem witness_DrawXorsTheClippedSprite :
    ({ State.reset with i := 4081 } : State).base + 15 ≤ 4096 ∧ 0 < 15 ∧
    4096 < ({ State.reset with i := 4082 } : State).base + 15 ∧
    spriteCovers State.reset 0 0 15 3 14 = true := by decide

/-- A draw that turns a pixel off, one that does not, and an instruction other than `Dxyn`. -/
theorem witness_CollisionIsAPixelTurnedOff :
    (∃ t, exec (.drw 0 0 1) { State.reset with disp := 1 } = .next t ∧ t.reg VF = 1) ∧
    (∃ t, exec (.drw 0 0 0) State.reset = .next t ∧ t.reg VF = 0) ∧
    ((∀ x y n, Instr.cls ≠ .drw x y n) ∧ ∃ t, exec .cls State.reset = .next t) :=
  ⟨⟨_, rfl, by decide +kernel⟩, ⟨_, rfl, by decide +kernel⟩, by simp, _, rfl⟩

/-- The state right after the clear meets the hypotheses on the drawing state. -/
theorem witness_ClearThenDrawShowsTheSprite :
    ∃ t, exec .cls { State.reset with i := 4081 } = .next t ∧ t.base + 15 ≤ 4096 := ⟨_, rfl, by decide⟩

/-- The state right after the first draw, VF left alone, meets the hypotheses on the second. -/
theorem witness_DrawingTwiceRestoresTheDisplay :
    ∃ t, exec (.drw 0 1 15) { State.reset with i := 4081 } = .next t ∧ t.base = 4081 ∧ t.reg 0 = 0 ∧ t.reg 1 = 0 :=
  ⟨_, rfl, by decide, by decide, by decide⟩

/-- Key number 15 with the key down and up; key number 16 under each policy. -/
theorem witness_SkipsOnTheKeyTest :
    (15 < 16 ∧ (0x8000 : Word).getLsbD 15 = true ∧ (0x7FFF : Word).getLsbD 15 = false) ∧
    16 ≤ ((withRegs [(0, 16)]).reg 0).toNat ∧ (withRegs [(0, 16)]).params.keyIndexPolicy = .notPressed ∧
    (∃ t, exec (.skp 0) { withRegs [(0, 16)] with
        key := 1, params := { defaultParams with keyIndexPolicy := .mod16 } } = .next t ∧ t.pc = 0x204) ∧
    (∃ t, exec (.skp 0) { withRegs [(0, 16)] with
        key := 1, params := { defaultParams with keyIndexPolicy := .fault } } = .next t ∧ t.halt ≠ none) :=
  ⟨by decide, by decide, rfl, ⟨_, rfl, by decide⟩, ⟨_, rfl, by decide⟩⟩

/-- No release (a held key); key 15 the only release; key 0 released among others. -/
theorem witness_WaitForAKeyRelease :
    (∀ k < 16, ¬ Released { State.reset with keyp := 1, key := 1 } k) ∧
    (Released { State.reset with keyp := 0x8000 } 15 ∧ ∀ j < 15, ¬ Released { State.reset with keyp := 0x8000 } j) ∧
    Released { State.reset with keyp := 0xFFFF } 0 := by
  unfold Released
  decide

/-- A running state; and the sound output at the highest value of ST. -/
theorem witness_TickCountsTheTimersDown :
    State.reset.halt = none ∧ (∃ t, act .tick { State.reset with st := 255 } = .next t ∧ t.st = 254) ∧
    ({ State.reset with st := 255 } : State).soundOn = true := ⟨rfl, ⟨_, rfl, by decide⟩, by decide⟩

/-- A running state, and each of the three actions that are no edit. -/
theorem witness_OnlyAnEditChangesTheLatches :
    State.reset.halt = none ∧ (∃ t, act (.keyEdit 1) State.reset = .next t ∧ t.key = 1) ∧
    (∃ t, act .step State.reset = .next t) ∧ (∃ t, act .tick State.reset = .next t) ∧
    (∃ t, act .repaintQuery State.reset = .next t) ∧ ∀ v, Action.tick ≠ .keyEdit v :=
  ⟨rfl, ⟨_, rfl, by decide⟩, ⟨_, rfl⟩, ⟨_, rfl⟩, ⟨_, rfl⟩, by simp⟩

/-- An instruction of each clause: one that reads no latch, and one that reads `KEY` alone. -/
theorem witness_OnlyKeyInstructionsReadTheLatches :
    ((∀ x, Instr.cls ≠ .skp x ∧ Instr.cls ≠ .sknp x ∧ Instr.cls ≠ .ldVxK x) ∧ ∃ t, exec .cls State.reset = .next t) ∧
    ((∀ x, Instr.skp 0 ≠ .ldVxK x) ∧ ∃ t, exec (.skp 0) State.reset = .next t) :=
  ⟨⟨by simp, _, rfl⟩, by simp, _, rfl⟩

theorem witness_RepaintQueryReadsAndClears :
    State.reset.halt = none ∧ ∃ t, act .repaintQuery { State.reset with draw := true } = .next t ∧ t.draw = false :=
  ⟨rfl, _, rfl, by decide⟩

/-- A frame of two steps, a press before the first and a release before the second, that ends with the block running. -/
theorem witness_FrameEndsWithQueryThenTick :
    ∃ t, runActions (frameActions [[0x0020], [0x0000]]) { State.reset with st := 2 } = .next t ∧ t.halt = none ∧ t.st = 1 :=
  ⟨_, rfl, by decide, by decide⟩

/-- Key 15 released and no lower key; key 0 released. -/
theorem witness_LatchEditsBetweenSteps :
    ((0x8000 : Word).getLsbD 15 = true ∧ (0x0000 : Word).getLsbD 15 = false ∧
      ∀ j < 15, (0x8000 : Word).getLsbD j = true → (0x0000 : Word).getLsbD j = true) ∧
    ((0xFFFF : Word).getLsbD 0 = true ∧ (0xFFFE : Word).getLsbD 0 = false) := by decide

/-- The longest image that loads and the shortest that does not. -/
theorem witness_ConstructionSetsEveryField :
    (List.replicate 3584 (0 : Byte)).length ≤ 3584 ∧ 3584 < (List.replicate 3585 (0 : Byte)).length := by
  rw [List.length_replicate, List.length_replicate]
  decide

theorem witness_PlacedWordIsFetched :
    ({ State.reset with pc := 4094 } : State).halt = none ∧ ({ State.reset with pc := 4094 } : State).pc.toNat + 1 < 4096 := by
  decide

/-- A memory that is not empty and meets the form. -/
theorem witness_CanonicalMemoriesThatReadAlikeAreEqual :
    Memory.wf [(0, 0), (512, 1), (4095, 255)] ∧ ¬ Memory.wf [(512, 0)] := by decide

end Sys2Proof.Tests
end

/-! Proofs of the family `10_state.md`: the frame of every operation and of every instruction, who reads the latches, the
invariant of a step and of a run, and the state a session starts from. -/

namespace Sys2Proof.Machine

/-! ### Frames: how they compose -/

theorem AgreeOn.trans {f : Field} {s t u : State} (h : AgreeOn f s t) (h' : AgreeOn f t u) : AgreeOn f s u := by
  cases f
  case mem | v | stack => exact fun a => (h' a).trans (h a)
  all_goals exact Eq.trans h' h

/-- Two changes in a row change at most what either of them changes. -/
theorem UnchangedBut.trans {l m : List Field} {s t u : State} (h : UnchangedBut l s t) (h' : UnchangedBut m t u) :
    UnchangedBut (l ++ m) s u := by
  intro f hf
  rw [List.mem_append, not_or] at hf
  exact (h f hf.1).trans (h' f hf.2)

theorem UnchangedBut.mono {l m : List Field} {s t : State} (h : UnchangedBut l s t) (hlm : l ⊆ m) : UnchangedBut m s t :=
  fun f hf => h f (fun hl => hf (hlm hl))

theorem UnchangedBut.refl (l : List Field) (s : State) : UnchangedBut l s s := by
  intro f _
  cases f
  case mem | v | stack => exact fun _ => rfl
  all_goals exact Eq.refl _

/-- A change that leaves the field `V` alone changes no register. -/
theorem UnchangedBut.regs {l : List Field} {s t : State} (h : UnchangedBut l s t) (hv : .v ∉ l) (rs : List Reg) :
    RegsUnchangedBut rs s t :=
  fun r _ => h .v hv r

/-- Two changes in a row change at most the registers that either of them changes. -/
theorem RegsUnchangedBut.trans {l m : List Reg} {s t u : State} (h : RegsUnchangedBut l s t)
    (h' : RegsUnchangedBut m t u) : RegsUnchangedBut (l ++ m) s u := by
  intro r hr
  rw [List.mem_append, not_or] at hr
  exact (h' r hr.2).trans (h r hr.1)

theorem RegsUnchangedBut.mono {l m : List Reg} {s t : State} (h : RegsUnchangedBut l s t) (hlm : l ⊆ m) :
    RegsUnchangedBut m s t :=
  fun r hr => h r (fun hl => hr (hlm hl))

/-! ### Frames: one rule per operation -/

section OperationFrames

variable (s : State)

theorem setReg_unchanged (x : Reg) (b : Byte) : UnchangedBut [.v] s (s.setReg x b) :=
  fun f hf => by cases f <;> simp_all [AgreeOn]

theorem setRegs_unchanged (bs : List Byte) : UnchangedBut [.v] s (s.setRegs bs) :=
  fun f hf => by cases f <;> simp_all [AgreeOn]

theorem setI_unchanged (w : Word) : UnchangedBut [.i] s (s.setI w) :=
  fun f hf => by cases f <;> simp_all [AgreeOn]

theorem setPc_unchanged (w : Word) : UnchangedBut [.pc] s (s.setPc w) :=
  fun f hf => by cases f <;> simp_all [AgreeOn]

theorem advance_unchanged : UnchangedBut [.pc] s s.advance := setPc_unchanged s _

theorem skipIf_unchanged (c : Bool) : UnchangedBut [.pc] s (s.skipIf c) := setPc_unchanged s _

theorem push_unchanged (w : Word) : UnchangedBut [.stack, .sp] s (s.push w) :=
  fun f hf => by cases f <;> simp_all [AgreeOn]

theorem pop_unchanged : UnchangedBut [.sp] s s.pop :=
  fun f hf => by cases f <;> simp_all [AgreeOn]

theorem setDt_unchanged (b : Byte) : UnchangedBut [.dt] s (s.setDt b) :=
  fun f hf => by cases f <;> simp_all [AgreeOn]

theorem setSt_unchanged (b : Byte) : UnchangedBut [.st] s (s.setSt b) :=
  fun f hf => by cases f <;> simp_all [AgreeOn]

theorem showDisplay_unchanged (d : Display) : UnchangedBut [.disp, .draw] s (s.showDisplay d) :=
  fun f hf => by cases f <;> simp_all [AgreeOn]

theorem countDraw_unchanged : UnchangedBut [.draws] s s.countDraw :=
  fun f hf => by cases f <;> simp_all [AgreeOn]

theorem doWrites_unchanged (a : Nat) (bs : List Byte) : UnchangedBut [.mem] s (s.doWrites a bs) :=
  fun f hf => by cases f <;> simp_all [AgreeOn]

theorem keyEdit_unchanged (w : Word) : UnchangedBut [.keyp, .key] s (s.keyEdit w) :=
  fun f hf => by cases f <;> simp_all [AgreeOn]

theorem setResultThenFlag_unchanged (x : Reg) (a f : Byte) : UnchangedBut [.v] s (s.setResultThenFlag x a f) :=
  ((setReg_unchanged s x a).trans (setReg_unchanged _ VF f)).mono (by simp)

theorem setFlagThenResult_unchanged (x : Reg) (a f : Byte) : UnchangedBut [.v] s (s.setFlagThenResult x a f) :=
  ((setReg_unchanged s VF f).trans (setReg_unchanged _ x a)).mono (by simp)

theorem setReg_regsUnchanged (x : Reg) (b : Byte) : RegsUnchangedBut [x] s (s.setReg x b) :=
  fun _ hr => State.reg_setReg_other s b (by simpa using hr)

theorem setResultThenFlag_regsUnchanged (x : Reg) (a f : Byte) :
    RegsUnchangedBut [x, VF] s (s.setResultThenFlag x a f) :=
  (setReg_regsUnchanged s x a).trans (setReg_regsUnchanged _ VF f)

theorem setFlagThenResult_regsUnchanged (x : Reg) (a f : Byte) :
    RegsUnchangedBut [x, VF] s (s.setFlagThenResult x a f) :=
  ((setReg_regsUnchanged s VF f).trans (setReg_regsUnchanged _ x a)).mono (by simp)

/-- A block of bytes loaded from `V[0]` upward reaches the registers up to its length. -/
theorem setRegs_regsUnchanged (x : Reg) {bs : List Byte} (h : bs.length = x.val + 1) :
    RegsUnchangedBut ((List.finRange 16).filter (fun r => r ≤ x)) s (s.setRegs bs) := by
  intro r hr
  have hxr : x.val < r.val := by simpa using hr
  rw [State.reg_setRegs, List.getElem?_eq_none (by omega), Option.getD_none]

end OperationFrames

/-- The default advance adds `PC` to what an effect changes. -/
theorem UnchangedBut.advance {s t : State} {l : List Field} (h : UnchangedBut l s t) :
    UnchangedBut (l ++ [.pc]) s t.advance := h.trans (advance_unchanged t)

/-! ### What an instruction with a check, a key test or a wait can answer -/

theorem afterCheck_unchanged {l : List Field} {c : Option Raised} {s t u : State} (h : afterCheck c s t = .next u)
    (ht : UnchangedBut l s t) : UnchangedBut (.halt :: l) s u := by
  rcases afterCheck_cases h with ⟨_, rfl⟩ | ⟨e, _, rfl⟩
  · exact ht.mono (List.subset_cons_self _ _)
  · exact (haltWith_unchanged s e).mono (by simp)

theorem afterCheck_regsUnchanged {rs : List Reg} {c : Option Raised} {s t u : State} (h : afterCheck c s t = .next u)
    (ht : RegsUnchangedBut rs s t) : RegsUnchangedBut rs s u := by
  rcases afterCheck_cases h with ⟨_, rfl⟩ | ⟨e, _, rfl⟩
  · exact ht
  · exact (haltWith_unchanged s e).regs (by simp) rs

theorem skipOnKey_unchanged {b : Bool} {x : Reg} {s t : State} (h : skipOnKey b x s = .next t) :
    UnchangedBut [.pc, .halt] s t := by
  rcases skipOnKey_cases h with ⟨e, _, rfl⟩ | ⟨p, _, rfl⟩
  · exact (haltWith_unchanged s e).mono (by simp)
  · exact (skipIf_unchanged s _).mono (by simp)

/-- `Fx0A` waits, or takes the released key (45_input_timers.md R223). -/
theorem execLdVxK_cases {x : Reg} {s t : State} (h : execLdVxK x s = .next t) :
    (releasedKey s.keyp s.key = none ∧ t = s) ∨
    ∃ k, releasedKey s.keyp s.key = some k ∧ t = (s.setReg x (BitVec.ofNat 8 k)).advance := by
  unfold execLdVxK at h
  split at h
  · rename_i hk; cases h; exact .inl ⟨hk, rfl⟩
  · rename_i k hk; cases h; exact .inr ⟨k, hk, rfl⟩

/-! ### The frame of every instruction (O19) -/

/-- No instruction changes a register it does not list. -/
theorem exec_regsUnchanged {i : Instr} {s t : State} (h : exec i s = .next t) : RegsUnchangedBut (regsWritten i) s t := by
  cases i
  case ldImm | addImm | ldReg | ldVxDt | rnd => cases h; exact setReg_regsUnchanged s _ _
  case orReg | andReg | xorReg | addReg | subReg | subn => cases h; exact setResultThenFlag_regsUnchanged s _ _ _
  case shr | shl => cases h; exact setFlagThenResult_regsUnchanged s _ _ _
  case drw => exact afterCheck_regsUnchanged h (setReg_regsUnchanged (s.showDisplay _) _ _)
  case loadRegs x => exact afterCheck_regsUnchanged h (setRegs_regsUnchanged s x (by simp))
  case ldVxK x =>
    rcases execLdVxK_cases h with ⟨_, rfl⟩ | ⟨k, _, rfl⟩
    · exact fun _ _ => rfl
    · exact setReg_regsUnchanged s _ _
  case ldB | storeRegs => exact afterCheck_regsUnchanged h ((doWrites_unchanged s _ _).regs (by simp) _)
  case skp | sknp => exact (skipOnKey_unchanged h).regs (by simp) _
  all_goals cases h; exact fun _ _ => rfl

/-- No instruction changes a field it does not list. -/
theorem exec_unchanged {i : Instr} {s t : State} (h : exec i s = .next t) :
    UnchangedBut (.v :: .pc :: .halt :: fieldsWritten i) s t := by
  cases i
  case ldImm | addImm | ldReg | ldVxDt =>
    cases h; exact (setReg_unchanged s _ _).advance.mono (by simp)
  case orReg | andReg | xorReg | addReg | subReg | subn =>
    cases h; exact (setResultThenFlag_unchanged s _ _ _).advance.mono (by simp)
  case shr | shl => cases h; exact (setFlagThenResult_unchanged s _ _ _).advance.mono (by simp)
  case rnd =>
    cases h
    exact ((setReg_unchanged s _ _).trans (countDraw_unchanged _)).advance.mono (by simp [fieldsWritten])
  case seImm | sneImm | seReg | sneReg => cases h; exact (skipIf_unchanged s _).mono (by simp)
  case skp | sknp => exact (skipOnKey_unchanged h).mono (by simp)
  case jp | jpV0 => cases h; exact (setPc_unchanged s _).mono (by simp)
  case ret => cases h; exact ((pop_unchanged s).trans (setPc_unchanged _ _)).mono (by simp [fieldsWritten])
  case call => cases h; exact ((push_unchanged s _).trans (setPc_unchanged _ _)).mono (by simp [fieldsWritten])
  case cls => cases h; exact (showDisplay_unchanged s _).advance.mono (by simp [fieldsWritten])
  case ldI | addI | ldF => cases h; exact (setI_unchanged s _).advance.mono (by simp [fieldsWritten])
  case ldDtVx => cases h; exact (setDt_unchanged s _).advance.mono (by simp [fieldsWritten])
  case ldStVx => cases h; exact (setSt_unchanged s _).advance.mono (by simp [fieldsWritten])
  case ldVxK x =>
    rcases execLdVxK_cases h with ⟨_, rfl⟩ | ⟨k, _, rfl⟩
    · exact UnchangedBut.refl _ _
    · exact (setReg_unchanged s _ _).advance.mono (by simp)
  case drw =>
    refine (afterCheck_unchanged h ((showDisplay_unchanged s _).trans (setReg_unchanged _ _ _)).advance).mono ?_
    simp [fieldsWritten]
  case ldB => exact (afterCheck_unchanged h (doWrites_unchanged s _ _).advance).mono (by simp [fieldsWritten])
  case storeRegs =>
    refine (afterCheck_unchanged h ((doWrites_unchanged s _ _).trans (setI_unchanged _ _)).advance).mono ?_
    simp [fieldsWritten]
  case loadRegs =>
    refine (afterCheck_unchanged h ((setRegs_unchanged s _).trans (setI_unchanged _ _)).advance).mono ?_
    simp [fieldsWritten]

/-- Settles O19: the register frame and the field frame of every instruction, composed from the frames of the operations
it is made of. -/
theorem eachInstructionWritesOnlyItsOwnState : Obligations.EachInstructionWritesOnlyItsOwnState :=
  fun _ _ _ h => ⟨exec_regsUnchanged h, exec_unchanged h⟩

/-! ### Who reads and who writes the latches (O48, O56) -/

/-- `KEY <- k; KEYP <- p`, the rest of the state as it is: the two latches set apart from the history of the edits. -/
def State.withLatches (s : State) (k p : Word) : State := { s with key := k, keyp := p }

theorem withLatches_unchanged (s : State) (k p : Word) : UnchangedBut [.key, .keyp] s (s.withLatches k p) := by
  intro f hf
  cases f
  case key | keyp => simp at hf
  case mem | v | stack => exact fun _ => rfl
  all_goals exact Eq.refl _

/-- Stores do not read the latches. -/
theorem doWrites_withLatches (s : State) (a : Nat) (bs : List Byte) (k p : Word) :
    (s.withLatches k p).doWrites a bs = (s.doWrites a bs).withLatches k p := by
  have hmem : ((s.withLatches k p).doWrites a bs).mem = (s.doWrites a bs).mem := State.doWrites_mem_congr a bs rfl rfl
  rw [State.doWrites_eq, hmem, State.doWrites_eq s]
  rfl

/-- A checked effect that commutes with a change of the latches gives an answer that does. -/
theorem afterCheck_withLatches {c : Option Raised} {s t u : State} (k p : Word) (h : afterCheck c s t = .next u) :
    afterCheck c (s.withLatches k p) (t.withLatches k p) = .next (u.withLatches k p) := by
  rcases afterCheck_cases h with ⟨rfl, rfl⟩ | ⟨e, rfl, rfl⟩ <;> rfl

/-- A key skip does not read `KEYP`. -/
theorem skipOnKey_withLatches {b : Bool} {x : Reg} {s t : State} (p : Word) (h : skipOnKey b x s = .next t) :
    skipOnKey b x (s.withLatches s.key p) = .next (t.withLatches s.key p) := by
  have hkey : pressed (s.withLatches s.key p).params (s.withLatches s.key p).key ((s.withLatches s.key p).reg x) =
    pressed s.params s.key (s.reg x) := rfl
  unfold skipOnKey
  rw [hkey]
  rcases skipOnKey_cases h with ⟨e, he, rfl⟩ | ⟨q, hq, rfl⟩
  · rw [he]; rfl
  · rw [hq]; rfl

/-- With other latches in the state an instruction other than `Fx0A` gives the same answer with those latches, when `KEY` is
the same or the instruction is no key skip. -/
theorem exec_withLatches {i : Instr} {s t : State} {k : Word} (p : Word) (hwait : ∀ x, i ≠ .ldVxK x)
    (hkey : k = s.key ∨ ∀ x, i ≠ .skp x ∧ i ≠ .sknp x) (h : exec i s = .next t) :
    exec i (s.withLatches k p) = .next (t.withLatches k p) := by
  cases i
  case ldVxK x => exact absurd rfl (hwait x)
  case skp x =>
    rcases hkey with rfl | hkey
    · exact skipOnKey_withLatches p h
    · exact absurd rfl (hkey x).1
  case sknp x =>
    rcases hkey with rfl | hkey
    · exact skipOnKey_withLatches p h
    · exact absurd rfl (hkey x).2
  case ldB x =>
    simp only [exec, execLdB, doWrites_withLatches]
    exact afterCheck_withLatches k p h
  case storeRegs x =>
    simp only [exec, execStoreRegs, doWrites_withLatches]
    exact afterCheck_withLatches k p h
  case drw | loadRegs => exact afterCheck_withLatches k p h
  all_goals cases h; rfl

/-- No instruction writes a latch. -/
theorem exec_latches {i : Instr} {s t : State} (h : exec i s = .next t) : t.key = s.key ∧ t.keyp = s.keyp := by
  have hw : .key ∉ fieldsWritten i ∧ .keyp ∉ fieldsWritten i := by cases i <;> simp [fieldsWritten]
  exact ⟨exec_unchanged h .key (by simp [hw.1]), exec_unchanged h .keyp (by simp [hw.2])⟩

/-- Settles O56: every operation an instruction is made of commutes with a change of the latches; the second clause is the
first with `KEY` kept. -/
theorem onlyKeyInstructionsReadTheLatches : Obligations.OnlyKeyInstructionsReadTheLatches := by
  unfold Obligations.OnlyKeyInstructionsReadTheLatches
  constructor
  · intro i s t k p hi h
    have hu := exec_withLatches (k := k) p (fun x => (hi x).2.2) (.inr fun x => ⟨(hi x).1, (hi x).2.1⟩) h
    exact ⟨_, hu, withLatches_unchanged t k p⟩
  · intro i s t p hi h
    have hu := exec_withLatches p hi (.inl rfl) h
    refine ⟨_, hu, fun f hf => ?_⟩
    by_cases hf' : f = .key
    · subst hf'
      exact (exec_latches h).1.symm
    · exact withLatches_unchanged t _ p f (by simp_all)

/-- No step writes a latch. -/
theorem step_latches {s t : State} (h : step s = .next t) : t.key = s.key ∧ t.keyp = s.keyp := by
  rcases step_cases s with ⟨r, _, hstep⟩ | ⟨_, _, hstep⟩ | ⟨w, u, _, _, hstep⟩ | ⟨w, i, _, _, hstep⟩ <;> rw [hstep] at h
  case inr.inr.inr => exact exec_latches h
  all_goals cases h; exact ⟨rfl, rfl⟩

/-! ### The actions of the two agents: nothing to a halted block (log 6), to a running one their own effect -/

theorem act_halted {s : State} {r : FaultRecord} (h : s.halt = some r) (a : Action) : act a s = .next s := by
  simp [act, h]

theorem act_step {s : State} (h : s.halt = none) : act .step s = step s := by
  simp [act, h]

theorem act_tick {s : State} (h : s.halt = none) : act .tick s = .next s.tick := by
  simp [act, h]

theorem act_keyEdit {s : State} (h : s.halt = none) (v : Word) : act (.keyEdit v) s = .next (s.keyEdit v) := by
  simp [act, h]

theorem act_repaintQuery {s : State} (h : s.halt = none) : act .repaintQuery s = .next s.repaintQuery.2 := by
  simp [act, h]

/-- Everything an action can do: nothing, or its own effect. -/
theorem act_cases {a : Action} {s t : State} (h : act a s = .next t) :
    t = s ∨ (a = .step ∧ step s = .next t) ∨ (a = .tick ∧ t = s.tick) ∨ (∃ v, a = .keyEdit v ∧ t = s.keyEdit v) ∨
      (a = .repaintQuery ∧ t = s.repaintQuery.2) := by
  cases hh : s.halt with
  | some r => rw [act_halted hh] at h; cases h; exact .inl rfl
  | none =>
    right
    cases a with
    | step => rw [act_step hh] at h; exact .inl ⟨rfl, h⟩
    | tick => rw [act_tick hh] at h; cases h; exact .inr (.inl ⟨rfl, rfl⟩)
    | keyEdit v => rw [act_keyEdit hh] at h; cases h; exact .inr (.inr (.inl ⟨v, rfl, rfl⟩))
    | repaintQuery => rw [act_repaintQuery hh] at h; cases h; exact .inr (.inr (.inr ⟨rfl, rfl⟩))

/-- What every action keeps, every run keeps. -/
theorem runActions_keeps {P : State → Prop} (hact : ∀ a s t, P s → act a s = .next t → P t) {actions : List Action}
    {s t : State} (hs : P s) (h : runActions actions s = .next t) : P t := by
  induction actions generalizing s with
  | nil => cases h; exact hs
  | cons a rest ih =>
    rw [runActions] at h
    split at h
    · rename_i u hu; exact ih (hact a s u hs hu) h
    · cases h
    · cases h

/-- Settles O48: the edit's own effect, and no step, tick or repaint query writes a latch. -/
theorem onlyAnEditChangesTheLatches : Obligations.OnlyAnEditChangesTheLatches := by
  unfold Obligations.OnlyAnEditChangesTheLatches
  refine ⟨fun v s => ⟨rfl, rfl, keyEdit_unchanged s v⟩, fun v s hs => act_keyEdit hs v, ?_, fun s t => step_latches⟩
  intro a s t ha h
  rcases act_cases h with rfl | ⟨_, hstep⟩ | ⟨_, rfl⟩ | ⟨v, rfl, _⟩ | ⟨_, rfl⟩
  · exact ⟨rfl, rfl⟩
  · exact step_latches hstep
  · exact ⟨rfl, rfl⟩
  · exact absurd rfl (ha v)
  · exact ⟨rfl, rfl⟩

/-! ### The errors a step can raise -/

/-- The kinds and addresses a fault record can hold (60_exceptions.md R241): what the invariant asks of a record. -/
def Raised.Recordable (e : Raised) : Prop :=
  (e.kind = .outOfBounds ∧ 4096 ≤ e.addr) ∨ (e.kind = .protectedWrite ∧ e.addr < 512) ∨
    (e.kind = .keyIndex ∧ 16 ≤ e.addr ∧ e.addr < 256)

theorem checkReads_recordable {base len : Nat} {e : Raised} (h : checkReads base len = some e) : e.Recordable := by
  rw [checkReads_eq] at h
  split at h
  · cases h
  · cases h; exact .inl ⟨rfl, le_max_right _ _⟩

/-- An address in memory that is not writable lies below 512. -/
theorem lt_of_not_writable {s : State} {a : Nat} (h : ¬ Writable s a) (ha : a < 4096) : a < 512 := by
  by_contra hlow
  exact h ⟨ha, fun h80 => by omega, fun _ h512 => by omega⟩

theorem checkWrites_recordable {s : State} {base len : Nat} {e : Raised} (h : checkWrites s.params base len = some e) :
    e.Recordable := by
  obtain ⟨k, _, _, hbad, rfl⟩ := checkWrites_some_cases h
  by_cases hin : 4096 ≤ base + k
  · exact .inl ⟨if_pos hin, hin⟩
  · exact .inr (.inl ⟨if_neg hin, lt_of_not_writable hbad (Nat.lt_of_not_le hin)⟩)

/-- The key test raises `KeyIndex` for a key number of 16 or more, under the policy `fault` (45_input_timers.md R220). -/
theorem pressed_error {p : Params} {key : Word} {b : Byte} {e : Raised} (h : pressed p key b = .error e) :
    e = ⟨.keyIndex, b.toNat⟩ ∧ 16 ≤ b.toNat ∧ p.keyIndexPolicy = .fault := by
  unfold pressed at h
  split at h
  · cases h
  · rename_i hb
    split at h
    · cases h
    · cases h
    · rename_i hpol; cases h; exact ⟨rfl, Nat.le_of_not_lt hb, hpol⟩

theorem HaltCause.recordable {i : Instr} {s : State} {e : Raised} (h : HaltCause i s e) : e.Recordable := by
  rcases h with ⟨_, _, _, _, h⟩ | ⟨_, _, h⟩ | ⟨_, _, h⟩ | ⟨_, _, h⟩ | ⟨x, _, h⟩
  · exact checkReads_recordable h
  · exact checkWrites_recordable h
  · exact checkWrites_recordable h
  · exact checkReads_recordable h
  · obtain ⟨rfl, h16, _⟩ := pressed_error h
    exact .inr (.inr ⟨rfl, h16, (s.reg x).isLt⟩)

/-! ### What an instruction does to memory's form, the stack and `PC` -/

/-- Every instruction keeps memory canonical. -/
theorem exec_memWf {i : Instr} {s t : State} (hm : s.mem.wf) (h : exec i s = .next t) : t.mem.wf := by
  cases i
  case ldB | storeRegs =>
    rcases afterCheck_cases h with ⟨_, rfl⟩ | ⟨e, _, rfl⟩
    · exact State.doWrites_wf _ _ hm
    · exact hm
  case drw | loadRegs => rcases afterCheck_cases h with ⟨_, rfl⟩ | ⟨e, _, rfl⟩ <;> exact hm
  case skp | sknp => rcases skipOnKey_cases h with ⟨e, _, rfl⟩ | ⟨p, _, rfl⟩ <;> exact hm
  case ldVxK => rcases execLdVxK_cases h with ⟨_, rfl⟩ | ⟨k, _, rfl⟩ <;> exact hm
  all_goals cases h; exact hm

/-- A slot of the stack keeps its word, or takes the address of the next instruction. -/
theorem exec_slot {i : Instr} {s t : State} (h : exec i s = .next t) (j : Fin 16) :
    t.slot j = s.slot j ∨ t.slot j = s.pc + 2 := by
  by_cases hcall : ∃ nnn, i = .call nnn
  · obtain ⟨nnn, rfl⟩ := hcall
    cases h
    rw [State.setPc_slot, State.slot_push]
    split
    · exact .inr rfl
    · exact .inl rfl
  · have hstack : .stack ∉ fieldsWritten i := by cases i <;> simp_all [fieldsWritten]
    exact .inl (exec_unchanged h .stack (by simp [hstack]) j)

theorem zextAddr_eq_ofNat (nnn : Addr) : zextAddr nnn = BitVec.ofNat 16 nnn.toNat := (BitVec.ofNat_toNat 16 nnn).symm

/-- The sum of `Bnnn` fits 16 bits (41_control.md R137). -/
theorem zextAddr_add_zextByte (nnn : Addr) (b : Byte) :
    zextAddr nnn + zextByte b = BitVec.ofNat 16 (nnn.toNat + b.toNat) := by
  unfold zextAddr zextByte
  bv_omega

/-- The `PC` an instruction that does not halt the block leaves is the one 40_cycle.md R114 gives. -/
theorem exec_pc {i : Instr} {s t : State} (h : exec i s = .next t) (ht : t.halt = none) : t.pc = pcAfter i s := by
  cases i
  case drw | ldB | storeRegs | loadRegs =>
    rcases afterCheck_cases h with ⟨_, rfl⟩ | ⟨e, _, rfl⟩
    · simp [pcAfter]
    · cases ht
  case skp | sknp =>
    rcases skipOnKey_cases h with ⟨e, _, rfl⟩ | ⟨p, hp, rfl⟩
    · cases ht
    · cases p <;> simp [pcAfter, hp]
  case ldVxK =>
    rcases execLdVxK_cases h with ⟨hk, rfl⟩ | ⟨k, hk, rfl⟩ <;> simp [pcAfter, hk]
  case seImm | seReg => cases h; simp [pcAfter]
  case sneImm x kk => cases h; by_cases hx : s.reg x = kk <;> simp [pcAfter, hx]
  case sneReg x y => cases h; by_cases hx : s.reg x = s.reg y <;> simp [pcAfter, hx]
  case jp nnn => cases h; exact zextAddr_eq_ofNat nnn
  case call nnn => cases h; exact zextAddr_eq_ofNat nnn
  case jpV0 nnn => cases h; exact zextAddr_add_zextByte nnn (s.reg 0)
  all_goals cases h; rfl

/-- After a successful fetch every instruction leaves `PC` at most 0x10FE, the largest target of `Bnnn`, while the return
addresses are in range (10_state.md R27). -/
theorem pcAfter_le {s : State} (hpc : s.pc.toNat + 1 < 4096) (hslots : ∀ j : Fin 16, (s.slot j).toNat ≤ 4096)
    (i : Instr) : (pcAfter i s).toNat ≤ 0x10FE := by
  have h2 : (s.pc + 2).toNat ≤ 0x10FE := by bv_omega
  have h4 : (s.pc + 4).toNat ≤ 0x10FE := by bv_omega
  cases i <;> simp only [pcAfter]
  case ret => exact (hslots _).trans (by decide)
  case jp | call | jpV0 => bv_omega
  case seImm | sneImm | seReg | sneReg | skp | sknp => split <;> assumption
  case ldVxK => split <;> omega
  all_goals exact h2

/-! ### The invariant (O15 to O17) -/

/-- The invariant speaks of memory, `PC`, the stack and `HALT` alone. -/
theorem Safe.congr {s t : State} (hs : Safe s) (hmem : t.mem = s.mem) (hpc : t.pc = s.pc) (hstack : t.stack = s.stack)
    (hhalt : t.halt = s.halt) : Safe t := by
  obtain ⟨hwf, hfits, hpcr, hslots⟩ := hs
  refine ⟨hmem ▸ hwf, fun r hr => ?_, hpc ▸ hpcr, fun j => ?_⟩
  · have hraw : t.rawAtPc = s.rawAtPc := by simp only [State.rawAtPc_eq, State.byteAt, hmem, hpc]
    rw [hpc, hraw]
    exact hfits r (hhalt ▸ hr)
  · simpa only [State.slot, hstack] using hslots j

/-- A running state needs no fault record. -/
theorem Safe.of_running {s : State} (hwf : s.mem.wf) (hpc : PcInRange s) (hhalt : s.halt = none) : Safe s :=
  ⟨hwf, fun r hr => (by rw [hhalt] at hr; cases hr), hpc⟩

/-- Halting keeps the invariant: the record is made of the state's own `PC` and bytes. -/
theorem Safe.haltWith {s : State} (hs : Safe s) {e : Raised} (he : e.Recordable) : Safe (s.haltWith e) :=
  ⟨hs.memCanonical, fun r hr => by cases hr; exact ⟨rfl, rfl, he⟩, hs.pcInRange⟩

/-- After a successful fetch an instruction keeps the invariant. -/
theorem exec_keeps_safe {i : Instr} {s t : State} (hs : Safe s) (hrun : s.halt = none) (hfetch : s.pc.toNat + 1 < 4096)
    (h : exec i s = .next t) : Safe t := by
  rcases exec_halt_cases hrun h with ht | ⟨e, rfl, hcause⟩
  · obtain ⟨hwf, _, _, hslots⟩ := hs
    have hpc : t.pc.toNat ≤ 0x10FE := exec_pc h ht ▸ pcAfter_le hfetch hslots i
    have hnext : (s.pc + 2).toNat ≤ 4096 := by bv_omega
    refine Safe.of_running (exec_memWf hwf h) ⟨hpc, fun j => ?_⟩ ht
    rcases exec_slot h j with hj | hj <;> rw [hj]
    · exact hslots j
    · exact hnext
  · exact hs.haltWith hcause.recordable

/-- An unknown word that was fetched is skipped with the invariant kept. -/
theorem reportUnknown_keeps_safe {s : State} (hs : Safe s) (hrun : s.halt = none) (hfetch : s.pc.toNat + 1 < 4096)
    (w : Word) : Safe (s.reportUnknown w) :=
  Safe.of_running hs.memCanonical ⟨by simp only [State.reportUnknown_pc]; bv_omega, hs.pcInRange.2⟩ hrun

/-- Settles O16, along the four ways of a step. -/
theorem stepKeepsSafe : Obligations.StepKeepsSafe := by
  intro s t hs h
  rcases step_cases s with ⟨r, _, hstep⟩ | ⟨_, _, hstep⟩ | ⟨w, u, ⟨hrun, hin, _⟩, _, hstep⟩ |
    ⟨w, i, ⟨hrun, hin, _⟩, _, hstep⟩ <;> rw [hstep] at h
  · cases h; exact hs
  · cases h; exact hs.haltWith (.inl ⟨rfl, le_max_right _ _⟩)
  · cases h; exact reportUnknown_keeps_safe hs hrun hin u
  · exact exec_keeps_safe hs hrun hin h

/-- A host action touches no field the invariant speaks of, and a step keeps it. -/
theorem act_keeps_safe (a : Action) (s t : State) (hs : Safe s) (h : act a s = .next t) : Safe t := by
  rcases act_cases h with rfl | ⟨_, hstep⟩ | ⟨_, rfl⟩ | ⟨v, _, rfl⟩ | ⟨_, rfl⟩
  · exact hs
  · exact stepKeepsSafe s t hs hstep
  all_goals exact hs.congr rfl rfl rfl rfl

/-- Settles O17, by induction on the actions. -/
theorem everyRunKeepsSafe : Obligations.EveryRunKeepsSafe :=
  fun _ _ _ hs h => runActions_keeps act_keeps_safe hs h

/-- Settles O15: memory at reset lists nothing, `PC` is 512 and every slot 0. -/
theorem resetIsSafe : Obligations.ResetIsSafe :=
  Safe.of_running (by decide) ⟨by decide, by decide⟩ rfl

/-! ### The start of a session (O52, O53) -/

section InitialBytes

variable (font initFill : Nat → Byte) (image : List Byte)

theorem initialByte_font {a : Nat} (h : a < 80) : initialByte font initFill image a = font a := if_pos h

theorem initialByte_image {j : Nat} (h : j < image.length) : initialByte font initFill image (512 + j) = image[j] := by
  have h80 : ¬ 512 + j < 80 := by omega
  simp [initialByte, h80, h]

theorem initialByte_fill {a : Nat} (h80 : 80 ≤ a) (h : a < 512 ∨ 512 + image.length ≤ a) :
    initialByte font initFill image a = initFill a := by
  have hout : ¬ (512 ≤ a ∧ a < 512 + image.length) := by omega
  simp [initialByte, hout, h80]

end InitialBytes

/-- The reset state with the memory, the stack and the parameters a session is constructed with. -/
def State.initial (p : Params) (font initFill : Nat → Byte) (initStack : Vector Word 16) (image : List Byte) : State :=
  { State.reset with
    mem := Memory.ofContents (initialByte font initFill image), stack := initStack, params := p }

section Construction

variable (p : Params) (font initFill : Nat → Byte) (initStack : Vector Word 16) {image : List Byte}

/-- An image of at most 3584 bytes is loaded (70_reset_and_hazards.md R270). -/
theorem construct_of_le (h : image.length ≤ 3584) :
    construct p font initFill initStack image = .next (State.initial p font initFill initStack image) :=
  if_neg (Nat.not_lt.2 h)

/-- A longer one is a `LoadError` (70_reset_and_hazards.md R272). -/
theorem construct_of_lt (h : 3584 < image.length) : construct p font initFill initStack image = .fault .loadError :=
  if_pos h

@[simp] theorem State.initial_mem :
    (State.initial p font initFill initStack image).mem = Memory.ofContents (initialByte font initFill image) := by
  rw [State.initial]

theorem State.byteAt_initial {a : Nat} (h : a < 4096) :
    (State.initial p font initFill initStack image).byteAt a = initialByte font initFill image a := by
  rw [State.byteAt, State.initial_mem, Memory.read_ofContents _ h]

end Construction

/-- A memory that reads everywhere as an unlisted address lists nothing. -/
theorem Memory.ofContents_eq_nil {f : Nat → Byte} (h : ∀ a, f a = unlisted a) : Memory.ofContents f = [] := by
  simp [Memory.ofContents, h]

/-- Settles O52: the bytes by the three regions of the contents, the other fields as the reset state has them. -/
theorem constructionSetsEveryField : Obligations.ConstructionSetsEveryField := by
  intro p font initFill initStack image
  refine ⟨fun hlen => ⟨_, construct_of_le p font initFill initStack hlen, ?_⟩, construct_of_lt p font initFill initStack⟩
  refine ⟨?_, ?_, ?_, ?_, rfl, rfl, rfl, rfl, rfl, rfl, rfl, rfl, ?_, rfl, rfl, rfl, rfl, rfl, ?_⟩
  · intro a ha
    rw [State.byteAt_initial _ _ _ _ (by omega), initialByte_font _ _ _ ha]
  · intro j hj
    rw [State.byteAt_initial _ _ _ _ (by omega), initialByte_image _ _ _ hj]
  · intro a h80 ha hout
    rw [State.byteAt_initial _ _ _ _ ha, initialByte_fill _ _ _ h80 hout]
  · intro r
    exact Vector.getElem_replicate r.isLt
  · intro q _
    exact BitVec.getLsbD_zero
  · rw [State.initial_mem]
    exact Memory.ofContents_wf _

/-- Settles O53: with the default font, no fill and no image, no address differs from what an unlisted one reads as. -/
theorem resetIsAConstruction : Obligations.ResetIsAConstruction := by
  have hmem : Memory.ofContents (initialByte (fun a => defaultFont.getD a 0) (fun _ => 0) []) = [] := by
    apply Memory.ofContents_eq_nil
    intro a
    by_cases ha : a < 80
    · rw [initialByte_font _ _ _ ha, unlisted, if_pos ha]
    · rw [initialByte_fill _ _ _ (by omega) (by rw [List.length_nil]; omega), unlisted, if_neg ha]
  refine (construct_of_le _ _ _ _ (Nat.zero_le _)).trans (congrArg _ ?_)
  rw [State.initial, hmem]
  rfl

end Sys2Proof.Machine

/-! Proofs of the family `20_memory.md`: the canonical form of memory decides equality, and no run changes a byte below
512 unless a policy is `write`. -/

namespace Sys2Proof.Machine

/-! ### The entries of a canonical memory are what it reads (O55) -/

namespace Memory

/-- An address that reads otherwise than an unlisted one is listed, with the byte it reads. -/
theorem mem_of_read_ne {m : Memory} {a : Nat} (h : read m a ≠ unlisted a) : (a, read m a) ∈ m := by
  induction m with
  | nil => exact absurd rfl h
  | cons c m ih =>
    rw [read_cons] at h ⊢
    split at h
    · rename_i hac
      rw [if_pos hac, hac]
      exact List.mem_cons_self
    · rename_i hac
      rw [if_neg hac]
      exact List.mem_cons_of_mem c (ih h)

/-- Where the addresses rise, every entry is the one its address reads. -/
theorem read_of_mem {m : Memory} (h : m.Pairwise (fun c d => c.1 < d.1)) {c : Host.Cell} (hc : c ∈ m) :
    read m c.1 = c.2 := by
  induction h with
  | nil => exact absurd hc List.not_mem_nil
  | cons hd _ ih =>
    rw [read_cons]
    rcases List.mem_cons.1 hc with rfl | hc
    · exact if_pos rfl
    · rw [if_neg (Nat.ne_of_gt (hd c hc)), ih hc]

/-- A canonical memory lists exactly the addresses of memory that read otherwise than unlisted ones, each with the byte
it reads. -/
theorem mem_iff_of_wf {m : Memory} (h : m.wf) (c : Host.Cell) :
    c ∈ m ↔ c.1 < 4096 ∧ read m c.1 = c.2 ∧ read m c.1 ≠ unlisted c.1 := by
  obtain ⟨hrise, hentry⟩ := h
  constructor
  · intro hc
    obtain ⟨hin, hne⟩ := hentry c hc
    have hread := read_of_mem hrise hc
    exact ⟨hin, hread, hread ▸ hne⟩
  · rintro ⟨_, hread, hne⟩
    have hmem := mem_of_read_ne hne
    rwa [hread] at hmem

end Memory

/-- Settles O55: the two memories have the same entries, and a list with rising addresses is determined by its
entries. -/
theorem canonicalMemoriesThatReadAlikeAreEqual : Obligations.CanonicalMemoriesThatReadAlikeAreEqual := by
  intro m n hm hn hread
  have hentries : ∀ c, c ∈ m ↔ c ∈ n := by
    intro c
    rw [Memory.mem_iff_of_wf hm, Memory.mem_iff_of_wf hn]
    exact and_congr_right fun hin => by rw [hread c.1 hin]
  have : Std.Asymm (fun c d : Host.Cell => c.1 < d.1) := ⟨fun _ _ => Nat.lt_asymm⟩
  exact hm.1.eq_of_mem_iff hn.1 hentries

/-! ### No byte below 512 changes unless a policy is `write` (O18) -/

/-- Neither region below 512 has the policy `write` (20_memory.md R64). -/
def LowMemoryGuarded (s : State) : Prop := s.params.fontWritePolicy ≠ .write ∧ s.params.lowWritePolicy ≠ .write

/-- The two states have the same parameters and agree on every byte below 512: what a run from a guarded state keeps.
The parameters stand in it because they guard the steps that follow. -/
def SameLowMemory (s t : State) : Prop := t.params = s.params ∧ ∀ a < 512, t.byteAt a = s.byteAt a

theorem SameLowMemory.refl (s : State) : SameLowMemory s s := ⟨rfl, fun _ _ => rfl⟩

theorem SameLowMemory.trans {s t u : State} (h : SameLowMemory s t) (h' : SameLowMemory t u) : SameLowMemory s u :=
  ⟨h'.1.trans h.1, fun a ha => (h'.2 a ha).trans (h.2 a ha)⟩

theorem SameLowMemory.guarded {s t : State} (h : SameLowMemory s t) (hs : LowMemoryGuarded s) : LowMemoryGuarded t := by
  rwa [LowMemoryGuarded, h.1]

theorem policy_eq_ignore {p : WritePolicy} (hfault : p ≠ .fault) (hwrite : p ≠ .write) : p = .ignore := by
  cases p with
  | fault => exact absurd rfl hfault
  | ignore => rfl
  | write => exact absurd rfl hwrite

/-- In a guarded state a write below 512 that raises nothing is dropped: its policy is `ignore`. -/
theorem Writable.dropped {s : State} {a : Nat} (hw : Writable s a) (hs : LowMemoryGuarded s) (ha : a < 512) :
    Dropped s a := by
  obtain ⟨_, hfont, hlow⟩ := hw
  by_cases h80 : a < 80
  · exact .inl ⟨h80, policy_eq_ignore (hfont h80) hs.1⟩
  · have h80 := Nat.le_of_not_lt h80
    exact .inr ⟨h80, ha, policy_eq_ignore (hlow h80 ha) hs.2⟩

/-- A block of stores that passed its checks in a guarded state leaves every byte below 512 alone. -/
theorem byteAt_doWrites_low {s : State} {base a : Nat} {bs : List Byte} (hs : LowMemoryGuarded s)
    (hc : checkWrites s.params base bs.length = none) (ha : a < 512) : (s.doWrites base bs).byteAt a = s.byteAt a := by
  have hw := (checkWrites_none_iff s base bs.length).1 hc
  cases bs with
  | nil => rfl
  | cons b bs =>
    obtain ⟨hlast, _⟩ := hw bs.length (Nat.lt_succ_self _)
    rw [State.byteAt_doWrites _ _ _ _ hlast, if_neg]
    rintro ⟨hle, hlt, hkept⟩
    have hwa : Writable s a := by simpa [Nat.add_sub_cancel' hle] using hw (a - base) (by omega)
    rw [(writeIgnored_iff s a).2 (hwa.dropped hs ha)] at hkept
    cases hkept

theorem length_decimalDigits (b : Byte) : (decimalDigits b).length = 3 := rfl

/-- No instruction changes a byte below 512 of a guarded state: `Fx33` and `Fx55` drop what they would write there, or
halt, and no other instruction writes memory. -/
theorem exec_byteAt_low {i : Instr} {s t : State} (hs : LowMemoryGuarded s) (h : exec i s = .next t) {a : Nat}
    (ha : a < 512) : t.byteAt a = s.byteAt a := by
  cases i
  case ldB x =>
    rcases afterCheck_cases h with ⟨hc, rfl⟩ | ⟨e, _, rfl⟩
    · exact byteAt_doWrites_low hs (by rwa [length_decimalDigits]) ha
    · rfl
  case storeRegs x =>
    rcases afterCheck_cases h with ⟨hc, rfl⟩ | ⟨e, _, rfl⟩
    · exact byteAt_doWrites_low hs (by rwa [State.length_regsUpTo]) ha
    · rfl
  all_goals exact exec_unchanged h .mem (by simp [fieldsWritten]) a

theorem exec_params {i : Instr} {s t : State} (h : exec i s = .next t) : t.params = s.params :=
  exec_unchanged h .params (by cases i <;> simp [fieldsWritten])

theorem step_sameLowMemory {s t : State} (hs : LowMemoryGuarded s) (h : step s = .next t) : SameLowMemory s t := by
  rcases step_cases s with ⟨_, _, hstep⟩ | ⟨_, _, hstep⟩ | ⟨_, u, _, _, hstep⟩ | ⟨_, i, _, _, hstep⟩ <;> rw [hstep] at h
  · cases h; exact .refl s
  · cases h; exact ⟨rfl, fun _ _ => rfl⟩
  · cases h; exact ⟨rfl, fun _ _ => rfl⟩
  · exact ⟨exec_params h, fun _ => exec_byteAt_low hs h⟩

/-- A host action touches neither memory nor the parameters, and a step keeps the bytes below 512. -/
theorem act_sameLowMemory {a : Action} {s t : State} (hs : LowMemoryGuarded s) (h : act a s = .next t) :
    SameLowMemory s t := by
  rcases act_cases h with rfl | ⟨_, hstep⟩ | ⟨_, rfl⟩ | ⟨v, _, rfl⟩ | ⟨_, rfl⟩
  · exact .refl _
  · exact step_sameLowMemory hs hstep
  all_goals exact ⟨rfl, fun _ _ => rfl⟩

/-- Settles O18, by induction on the actions: each action keeps the bytes below 512, and the policies that guard the
next one. -/
theorem lowMemoryIsNeverWritten : Obligations.LowMemoryIsNeverWritten := by
  intro actions s t hfont hlow h
  have hs : LowMemoryGuarded s := ⟨hfont, hlow⟩
  have hact (a : Action) (u v : State) (hu : SameLowMemory s u) (huv : act a u = .next v) : SameLowMemory s v :=
    hu.trans (act_sameLowMemory (hu.guarded hs) huv)
  obtain ⟨_, hbytes⟩ := runActions_keeps hact (.refl s) h
  exact hbytes

end Sys2Proof.Machine

/-! Proofs of the family `30_encoding.md`: decoder and encoder are inverse to each other, the decoder is the opcode map,
and the words it answers as unknown. -/

namespace Sys2Proof

open Machine Laws

/-! ### Decoding an encoded instruction (O1) -/

/-- Settles O1: the fields of an encoded word are the operands and the fixed nibbles it was encoded from, and on those
fields the decoder takes the instruction's own branch. -/
theorem decodeInvertsEncode : Obligations.DecodeInvertsEncode := by
  intro i hi
  cases i
  case cls | ret => rfl
  case drw x y n =>
    have hn : n < 16 := of_decide_eq_true hi
    simp [encode, decode, Nat.mod_eq_of_lt hn]
  case skp | sknp => simp [encode, decode, decodeFamilyE]
  case ldVxDt | ldVxK | ldDtVx | ldStVx | addI | ldF | ldB | storeRegs | loadRegs =>
    simp [encode, decode, decodeFamilyF]
  case ldReg | orReg | andReg | xorReg | addReg | subReg | shr | subn | shl =>
    simp [encode, decode, decodeFamily8]
  all_goals simp [encode, decode]

/-! ### A word is put together again from its fields -/

theorem regBits_fieldX (w : Word) : regBits (fieldX w) = w.extractLsb' 8 4 :=
  BitVec.eq_of_toNat_eq (regBits_toNat _)

theorem regBits_fieldY (w : Word) : regBits (fieldY w) = w.extractLsb' 4 4 :=
  BitVec.eq_of_toNat_eq (regBits_toNat _)

theorem encodeXkk_fields {w : Word} {n0 : BitVec 4} (h0 : fieldN0 w = n0.toNat) :
    encodeXkk n0 (fieldX w) (fieldKk w) = w := by
  obtain rfl : w.extractLsb' 12 4 = n0 := BitVec.eq_of_toNat_eq h0
  refine BitVec.eq_of_getLsbD_eq fun i hi => ?_
  rw [getLsbD_encodeXkk, regBits_fieldX]
  interval_cases i <;> simp [fieldKk]

/-- A word of family `n0` whose low byte is `kk` is the word of the format `n0 x kk` with that byte. -/
theorem encodeXkk_fieldX {w : Word} {n0 : BitVec 4} {kk : Byte} (h0 : fieldN0 w = n0.toNat) (hkk : fieldKk w = kk) :
    encodeXkk n0 (fieldX w) kk = w := hkk ▸ encodeXkk_fields h0

theorem encodeXyn_fields {w : Word} {n0 n : BitVec 4} (h0 : fieldN0 w = n0.toNat) (hn : fieldN w = n.toNat) :
    encodeXyn n0 (fieldX w) (fieldY w) n = w := by
  obtain rfl : w.extractLsb' 12 4 = n0 := BitVec.eq_of_toNat_eq h0
  obtain rfl : w.extractLsb' 0 4 = n := BitVec.eq_of_toNat_eq hn
  refine BitVec.eq_of_getLsbD_eq fun i hi => ?_
  rw [getLsbD_encodeXyn, regBits_fieldX, regBits_fieldY]
  interval_cases i <;> simp

theorem encodeNnn_fields {w : Word} {n0 : BitVec 4} (h0 : fieldN0 w = n0.toNat) :
    encodeNnn n0 (fieldNnn w) = w := by
  obtain rfl : w.extractLsb' 12 4 = n0 := BitVec.eq_of_toNat_eq h0
  refine BitVec.eq_of_getLsbD_eq fun i hi => ?_
  rw [getLsbD_encodeNnn]
  interval_cases i <;> simp [fieldNnn]

/-! ### Encoding a decoded word (O2) -/

/-- `i` is an instruction and `w` is its word. -/
def IsWordOf (w : Word) (i : Instr) : Prop := i.wellFormed = true ∧ encode i = w

theorem fieldN_lt (w : Word) : fieldN w < 16 := (w.extractLsb' 0 4).isLt

theorem isWordOf_drw {w : Word} (h0 : fieldN0 w = 0xD) : IsWordOf w (.drw (fieldX w) (fieldY w) (fieldN w)) :=
  ⟨decide_eq_true (fieldN_lt w), encodeXyn_fields h0 (Nat.mod_eq_of_lt (fieldN_lt w)).symm⟩

/-- One test of a decoder's chain of tests: what it answers is the word's instruction when both of its branches are. -/
theorem isWordOf_of_ite {w : Word} {i j : Instr} {c : Prop} [Decidable c] {d : Decoded} (hj : c → IsWordOf w j)
    (hd : d = .known i → IsWordOf w i) (h : (if c then .known j else d) = .known i) : IsWordOf w i := by
  split at h
  case isTrue hc => cases h; exact hj hc
  case isFalse => exact hd h

theorem isWordOf_of_unknown {w : Word} {i : Instr} (h : Decoded.unknown w = .known i) : IsWordOf w i := nomatch h

theorem isWordOf_of_decodeFamily0 {w : Word} {i : Instr} : decodeFamily0 w = .known i → IsWordOf w i :=
  isWordOf_of_ite (fun hw => ⟨rfl, hw.symm⟩) (isWordOf_of_ite (fun hw => ⟨rfl, hw.symm⟩) isWordOf_of_unknown)

theorem isWordOf_of_decodeFamily8 {w : Word} {i : Instr} (h0 : fieldN0 w = 0x8) (h : decodeFamily8 w = .known i) :
    IsWordOf w i := by
  unfold decodeFamily8 at h
  split at h <;> cases h <;> exact ⟨rfl, encodeXyn_fields h0 ‹_›⟩

theorem isWordOf_of_decodeFamilyE {w : Word} {i : Instr} (h0 : fieldN0 w = 0xE) :
    decodeFamilyE w = .known i → IsWordOf w i := by
  unfold decodeFamilyE
  iterate 2 refine isWordOf_of_ite (fun hkk => ⟨rfl, encodeXkk_fieldX h0 hkk⟩) ?_
  exact isWordOf_of_unknown

theorem isWordOf_of_decodeFamilyF {w : Word} {i : Instr} (h0 : fieldN0 w = 0xF) :
    decodeFamilyF w = .known i → IsWordOf w i := by
  unfold decodeFamilyF
  iterate 9 refine isWordOf_of_ite (fun hkk => ⟨rfl, encodeXkk_fieldX h0 hkk⟩) ?_
  exact isWordOf_of_unknown

/-- Settles O2, by the families of the decoder: in each branch the fields it read, with the family and the selector it
tested, are the whole word. Case `h_k` is family `k - 1`; the last is no family. -/
theorem encodeInvertsDecode : Obligations.EncodeInvertsDecode := by
  intro w i h
  unfold decode at h
  split at h
  case h_1 h0 => exact isWordOf_of_decodeFamily0 h
  case h_9 h0 => exact isWordOf_of_decodeFamily8 h0 h
  case h_15 h0 => exact isWordOf_of_decodeFamilyE h0 h
  case h_16 h0 => exact isWordOf_of_decodeFamilyF h0 h
  case h_17 => exact isWordOf_of_unknown h
  case h_2 h0 | h_3 h0 | h_11 h0 | h_12 h0 => cases h; exact ⟨rfl, encodeNnn_fields h0⟩
  case h_4 h0 | h_5 h0 | h_7 h0 | h_8 h0 | h_13 h0 => cases h; exact ⟨rfl, encodeXkk_fields h0⟩
  case h_6 h0 | h_10 h0 =>
    refine isWordOf_of_ite (fun hn => ?_) isWordOf_of_unknown h
    exact ⟨rfl, encodeXyn_fields h0 hn⟩
  case h_14 h0 => cases h; exact isWordOf_drw h0

/-! ### The decoder and the opcode map (O3) -/

theorem IsWordOf.decode_eq {w : Word} {i : Instr} (h : IsWordOf w i) : decode w = .known i := by
  obtain ⟨hi, rfl⟩ := h
  exact decodeInvertsEncode i hi

section Masks

/-! A word that agrees with a row's `match` under its mask has the `match`'s fields there. -/

variable {value : Word} {instr : Word → Instr}

theorem encodedAs_F000 (h : ∀ w, fieldN0 w = fieldN0 value → IsWordOf w (instr w)) : EncodedAs value 0xF000 instr := by
  rintro w rfl
  exact (h w (fieldN0_and_F000 w).symm).decode_eq

theorem encodedAs_F00F (h : ∀ w, fieldN0 w = fieldN0 value → fieldN w = fieldN value → IsWordOf w (instr w)) :
    EncodedAs value 0xF00F instr := by
  rintro w rfl
  exact (h w (fieldN0_and_F00F w).symm (fieldN_and_F00F w).symm).decode_eq

theorem encodedAs_F0FF (h : ∀ w, fieldN0 w = fieldN0 value → fieldKk w = fieldKk value → IsWordOf w (instr w)) :
    EncodedAs value 0xF0FF instr := by
  rintro w rfl
  exact (h w (fieldN0_and_F0FF w).symm (fieldKk_and_F0FF w).symm).decode_eq

theorem encodedAs_FFFF (h : IsWordOf value (instr value)) : EncodedAs value 0xFFFF instr := by
  rintro w rfl
  rw [show w &&& 0xFFFF = w from BitVec.and_allOnes] at h
  exact h.decode_eq

end Masks

/-- A statement about every row of the opcode map, row by row. -/
theorem forall_mem_opcodeMap {P : OpcodeRow → Prop} :
    (∀ row ∈ opcodeMap, P row) ↔
      opcodeRowsTo11.Forall P ∧ opcodeRowsTo23.Forall P ∧ opcodeRowsTo34.Forall P := by
  simp only [opcodeMap, List.forall_mem_append, List.forall_iff_forall_mem, and_assoc]

/-- Every word with the fixed bits of a row decodes to the row's instruction: with its operand fields, those bits are the
whole word of that instruction. -/
theorem encodedAs_of_mem_opcodeMap : ∀ row ∈ opcodeMap, EncodedAs row.value row.mask row.instr := by
  refine forall_mem_opcodeMap.2 ⟨⟨?cls, ?ret, ?jp, ?call, ?seImm, ?sneImm, ?seReg, ?ldImm, ?addImm, ?ldReg, ?orReg⟩,
    ⟨?andReg, ?xorReg, ?addReg, ?subReg, ?shr, ?subn, ?shl, ?sneReg, ?ldI, ?jpV0, ?rnd, ?drw⟩,
    ⟨?skp, ?sknp, ?ldVxDt, ?ldVxK, ?ldDtVx, ?ldStVx, ?addI, ?ldF, ?ldB, ?storeRegs, ?loadRegs⟩⟩
  case cls | ret => exact encodedAs_FFFF ⟨rfl, rfl⟩
  case jp | call | ldI | jpV0 => exact encodedAs_F000 fun w h0 => ⟨rfl, encodeNnn_fields h0⟩
  case seImm | sneImm | ldImm | addImm | rnd => exact encodedAs_F000 fun w h0 => ⟨rfl, encodeXkk_fields h0⟩
  case drw => exact encodedAs_F000 fun w h0 => isWordOf_drw h0
  case skp | sknp | ldVxDt | ldVxK | ldDtVx | ldStVx | addI | ldF | ldB | storeRegs | loadRegs =>
    exact encodedAs_F0FF fun w h0 hkk => ⟨rfl, encodeXkk_fieldX h0 hkk⟩
  all_goals exact encodedAs_F00F fun w h0 hn => ⟨rfl, encodeXyn_fields h0 hn⟩

/-- The encoded word of every instruction has the fixed bits of its row. -/
theorem encode_and_mask (i : Instr) : RowWord.Statement i := by
  cases i
  case cls | ret => exact fun _ => rfl
  case jp | call | ldI | jpV0 => exact fun _ => (RowWord.encodeNnn_and_F000 _ _).trans rfl
  case seImm | sneImm | ldImm | addImm | rnd => exact fun _ => (RowWord.encodeXkk_and_F000 _ _ _).trans rfl
  case drw => exact fun _ => (RowWord.encodeXyn_and_F000 _ _ _ _).trans rfl
  case seReg | sneReg | ldReg | orReg | andReg | xorReg | addReg | subReg | shr | subn | shl =>
    exact fun _ => (RowWord.encodeXyn_and_F00F _ _ _ _).trans rfl
  all_goals exact fun _ => (RowWord.encodeXkk_and_F0FF _ _ _).trans rfl

theorem fixedBits_of_mem_opcodeMap :
    ∀ row ∈ opcodeMap, ∀ w, RowWord.fixedBits (row.instr w) = (row.value, row.mask) := by
  refine forall_mem_opcodeMap.2 ⟨?_, ?_, ?_⟩ <;> and_intros <;> exact fun _ => rfl

/-- A word decodes to a row's instruction exactly when it has the row's fixed bits. -/
theorem and_mask_eq_iff_decode {row : OpcodeRow} (hrow : row ∈ opcodeMap) (w : Word) :
    w &&& row.mask = row.value ↔ decode w = .known (row.instr w) := by
  refine ⟨encodedAs_of_mem_opcodeMap row hrow w, fun h => ?_⟩
  obtain ⟨hwf, hw⟩ := encodeInvertsDecode w _ h
  have hbits := encode_and_mask _ hwf
  rwa [fixedBits_of_mem_opcodeMap row hrow w, hw] at hbits

theorem fixedBits_mem (i : Instr) : RowWord.fixedBits i ∈ opcodeMap.map fun r => (r.value, r.mask) := by
  cases i <;> exact of_decide_eq_true rfl

/-- Every word that decodes to an instruction has the fixed bits of some row, the one with the instruction's own. -/
theorem exists_row_of_decode {w : Word} {i : Instr} (h : decode w = .known i) :
    ∃ row ∈ opcodeMap, w &&& row.mask = row.value := by
  obtain ⟨hwf, rfl⟩ := encodeInvertsDecode w i h
  obtain ⟨row, hrow, hbits⟩ := List.mem_map.1 (fixedBits_mem i)
  have hmask := encode_and_mask i hwf
  rw [← hbits] at hmask
  exact ⟨row, hrow, hmask⟩

/-- No two rows have the same fixed bits. -/
theorem opcodeMap_fixedBits_distinct : opcodeMap.Pairwise fun r q => (r.value, r.mask) ≠ (q.value, q.mask) := by
  have h : (opcodeMap.map fun r => (r.value, r.mask)).Nodup := by decide
  exact List.pairwise_map.1 h

/-- Settles O3: a row's fixed bits and its instruction decide each other, so a decoded word is in the row with its
instruction's fixed bits, and a word in two rows would decode to an instruction with the fixed bits of both. -/
theorem decoderFollowsTheOpcodeMap : Obligations.DecoderFollowsTheOpcodeMap := by
  refine ⟨rfl, fun row hrow => and_mask_eq_iff_decode hrow, fun w i h => ?_, ?_⟩
  · obtain ⟨row, hrow, hw⟩ := exists_row_of_decode h
    have hi := h.symm.trans ((and_mask_eq_iff_decode hrow w).1 hw)
    exact ⟨row, hrow, hw, Decoded.known.inj hi⟩
  · refine opcodeMap_fixedBits_distinct.imp_of_mem fun {r q} hr hq hne w ⟨hwr, hwq⟩ => hne ?_
    have hrq : Decoded.known (r.instr w) = .known (q.instr w) :=
      ((and_mask_eq_iff_decode hr w).1 hwr).symm.trans ((and_mask_eq_iff_decode hq w).1 hwq)
    rw [← fixedBits_of_mem_opcodeMap r hr w, ← fixedBits_of_mem_opcodeMap q hq w, Decoded.known.inj hrq]

/-! ### The unknown words (O4) -/

theorem fieldN0_lt (w : Word) : fieldN0 w < 16 := (w.extractLsb' 12 4).isLt

theorem fieldN0_eq (w : Word) : fieldN0 w = w.toNat / 0x1000 := by
  have hw := w.isLt
  rw [fieldN0, BitVec.extractLsb'_toNat, Nat.shiftRight_eq_div_pow]
  exact Nat.mod_eq_of_lt (by omega)

theorem fieldN_eq (w : Word) : fieldN w = w.toNat % 16 := by simp [fieldN]

theorem fieldKk_toNat (w : Word) : (fieldKk w).toNat = w.toNat % 256 := by simp [fieldKk]

/-- A chain of tests answers unknown when its first test fails and the rest of it answers unknown. -/
theorem ite_known_unknown_iff {w : Word} {i : Instr} {c : Prop} [Decidable c] {d : Decoded} :
    (if c then .known i else d) = .unknown w ↔ ¬ c ∧ d = .unknown w := by
  split <;> simp [*]

theorem decodeFamily0_unknown_iff (w : Word) : decodeFamily0 w = .unknown w ↔ w ≠ 0x00E0 ∧ w ≠ 0x00EE := by
  simp [decodeFamily0, ite_known_unknown_iff]

theorem decodeFamily8_unknown_iff (w : Word) :
    decodeFamily8 w = .unknown w ↔ w.toNat % 16 ∈ [0x8, 0x9, 0xA, 0xB, 0xC, 0xD, 0xF] := by
  have hn := fieldN_lt w
  rw [← fieldN_eq]
  interval_cases h : fieldN w <;> simp [decodeFamily8, h]

theorem decodeFamilyE_unknown_iff (w : Word) : decodeFamilyE w = .unknown w ↔ w.toNat % 256 ∉ [0x9E, 0xA1] := by
  rw [← fieldKk_toNat]
  simp [decodeFamilyE, ite_known_unknown_iff, ← BitVec.toNat_inj]

theorem decodeFamilyF_unknown_iff (w : Word) :
    decodeFamilyF w = .unknown w ↔ w.toNat % 256 ∉ [0x07, 0x0A, 0x15, 0x18, 0x1E, 0x29, 0x33, 0x55, 0x65] := by
  rw [← fieldKk_toNat]
  simp [decodeFamilyF, ite_known_unknown_iff, ← BitVec.toNat_inj]

/-- Settles O4, by the families of the decoder: in each, the clauses of the other families are false, and its own says
when its selector answers unknown. -/
theorem unknownWordsByFamily : Obligations.UnknownWordsByFamily := by
  intro w
  have hlow : w.toNat < 0x1000 ↔ fieldN0 w = 0 := by rw [fieldN0_eq]; omega
  have h0 := fieldN0_lt w
  rw [hlow, ← fieldN0_eq, ← decodeFamily0_unknown_iff, ← decodeFamily8_unknown_iff, ← decodeFamilyE_unknown_iff,
    ← decodeFamilyF_unknown_iff, ← fieldN_eq]
  interval_cases h : fieldN0 w <;> simp [decode, h]

/-- Settles O5: the words are fixed, and the decoder computes on each. -/
theorem sampleWordsDecode : Obligations.SampleWordsDecode := by
  unfold Obligations.SampleWordsDecode
  decide

end Sys2Proof

/-! Proofs of the family `40_cycle.md`: the four ways of a step, the policy for `PC`, and that no run of the two agents
stops. -/

namespace Sys2Proof.Machine

/-! ### The step, way by way (O6 to O9) -/

/-- Settles O6: the step's branch for a word that decodes to an instruction. -/
theorem stepExecutesTheDecodedInstruction : Obligations.StepExecutesTheDecodedInstruction :=
  fun _ _ _ => step_known

theorem reportUnknown_unchanged (s : State) (w : Word) : UnchangedBut [.diag, .pc] s (s.reportUnknown w) :=
  fun f hf => by cases f <;> simp_all [AgreeOn]

/-- Settles O7: the step's branch for an unknown word, and what the report changes. -/
theorem unknownWordReportedAndSkipped : Obligations.UnknownWordReportedAndSkipped := by
  intro s w hw hd
  exact ⟨s.reportUnknown w, step_unknown hw hd, rfl, rfl, hw.1, reportUnknown_unchanged s w⟩

/-- At the last address of memory a fault record holds the one byte there. -/
theorem State.rawAtPc_of_eq_last {s : State} (h : s.pc.toNat = 4095) : s.rawAtPc = [s.byteAt 4095] := by
  rw [State.rawAtPc_eq, h]
  rfl

/-- Beyond memory a fault record holds no byte. -/
theorem State.rawAtPc_of_outside {s : State} (h : 4096 ≤ s.pc.toNat) : s.rawAtPc = [] := by
  rw [State.rawAtPc_eq, if_neg (by omega), if_neg (by omega)]

/-- Settles O8: the step's branch for a fetch that fails, its record at 4095 and from 4096 on. -/
theorem fetchOutsideMemoryHalts : Obligations.FetchOutsideMemoryHalts := by
  intro s hrun hout
  refine ⟨_, step_outside hrun hout, fun hlast => ?_, fun hbeyond => ?_, haltWith_unchanged s _⟩
  · rw [State.haltWith_halt, State.faultRecord, State.rawAtPc_of_eq_last hlast, hlast]
    rfl
  · rw [State.haltWith_halt, State.faultRecord, State.rawAtPc_of_outside hbeyond, max_eq_left hbeyond]

theorem step_halted {s : State} {r : FaultRecord} (h : s.halt = some r) : step s = .next s := by
  simp only [step, h]

/-- Settles O9: the branch of a halted block, in the step and in every action. -/
theorem haltedBlockIsFrozen : Obligations.HaltedBlockIsFrozen :=
  fun _ _ h => ⟨step_halted h, act_halted h⟩

/-! ### No run stops (O10) -/

/-- Every step answers a next state. -/
theorem step_next (s : State) : ∃ t, step s = .next t := by
  rcases step_cases s with ⟨_, _, hstep⟩ | ⟨_, _, hstep⟩ | ⟨_, _, _, _, hstep⟩ | ⟨_, i, _, _, hstep⟩
  case inr.inr.inr => exact hstep ▸ exec_next i s
  all_goals exact ⟨_, hstep⟩

/-- Every action answers a next state. -/
theorem act_next (a : Action) (s : State) : ∃ t, act a s = .next t := by
  cases h : s.halt with
  | some r => exact ⟨s, act_halted h a⟩
  | none =>
    cases a with
    | step => exact act_step h ▸ step_next s
    | tick => exact ⟨_, act_tick h⟩
    | keyEdit v => exact ⟨_, act_keyEdit h v⟩
    | repaintQuery => exact ⟨_, act_repaintQuery h⟩

theorem runActions_cons {a : Action} {s t : State} (h : act a s = .next t) (rest : List Action) :
    runActions (a :: rest) s = runActions rest t := by
  simp only [runActions, h]

/-- Every sequence of actions answers a next state, by induction on the sequence. -/
theorem neverStops (s : State) : NeverStops s := by
  intro actions
  induction actions generalizing s with
  | nil => exact ⟨s, rfl⟩
  | cons a rest ih =>
    obtain ⟨t, ht⟩ := act_next a s
    exact runActions_cons ht rest ▸ ih t

/-- Settles O10: every action answers a next state, so every sequence of them does. -/
theorem noRunEverStops : Obligations.NoRunEverStops := fun s => ⟨step_next s, neverStops s⟩

/-! ### The policy for `PC` (O20) -/

/-- Settles O20: an instruction leaves the `PC` of the policy's table (`exec_pc`), a report the default advance. -/
theorem programCounterPolicy : Obligations.ProgramCounterPolicy := by
  intro s t hstep ht
  constructor
  · rintro i ⟨w, hw, hd⟩
    rw [step_known hw hd] at hstep
    exact exec_pc hstep ht
  · intro w hw hd
    rw [step_unknown hw hd] at hstep
    cases hstep
    exact State.reportUnknown_pc s w

/-! ### The placed word is the word fetched (O54) -/

theorem withFetchWord_16 (s : State) (w : Word) :
    s.withFetchWord 16 w.toNat = s.placeWordAtPc (highByte w) (lowByte w) := by
  have hw : BitVec.ofNat 16 (w.toNat % 2 ^ 16) = w := by
    rw [Nat.mod_eq_of_lt w.isLt, BitVec.ofNat_toNat, BitVec.setWidth_eq]
  simp only [State.withFetchWord, tableBytes, hw]

/-- A word is its two bytes, the high one first (20_memory.md R65). -/
theorem toNat_eq_highByte_lowByte (w : Word) : w.toNat = (highByte w).toNat * 256 + (lowByte w).toNat := by
  simp only [highByte, lowByte, BitVec.extractLsb'_toNat, Nat.shiftRight_eq_div_pow]
  have := w.isLt
  omega

/-- Where both bytes at `PC` lie in memory, a running block fetches the two bytes placed there. -/
theorem fetches_placeWordAtPc {s : State} {w : Word} {hi lo : Byte} (hrun : s.halt = none) (hin : s.pc.toNat + 1 < 4096)
    (hw : w.toNat = hi.toNat * 256 + lo.toNat) : Fetches (s.placeWordAtPc hi lo) w := by
  have hhi : (s.placeWordAtPc hi lo).byteAt s.pc.toNat = hi := by
    rw [State.byteAt, State.placeWordAtPc_mem, Memory.read_write_other _ _ (Nat.succ_ne_self _).symm,
      Memory.read_write_same _ _ (Nat.lt_of_succ_lt hin)]
  have hlo : (s.placeWordAtPc hi lo).byteAt (s.pc.toNat + 1) = lo := by
    rw [State.byteAt, State.placeWordAtPc_mem, Memory.read_write_same _ _ hin]
  refine ⟨hrun, hin, ?_⟩
  rw [State.placeWordAtPc_pc, hhi, hlo, hw]

/-- Settles O54: the bytes placed are the two of the word, and a read finds each where it was written. -/
theorem placedWordIsFetched : Obligations.PlacedWordIsFetched := by
  intro s w hrun hin
  rw [withFetchWord_16]
  exact fetches_placeWordAtPc hrun hin (toNat_eq_highByte_lowByte w)

end Sys2Proof.Machine

/-! Proofs of the family `41_control.md`: the return, the jumps, the call and the skips, and the round trip of a call
and its return. -/

namespace Sys2Proof.Machine

/-! ### What the jumps, the skips and the stack share -/

/-- The row of 30_encoding.md R93 numbered `n + 1` is an encoding. -/
theorem encodedAs_of_getElem? {n : Nat} {value mask : Word} {instr : Word → Instr}
    (h : opcodeMap[n]? = some ⟨value, mask, instr⟩) : EncodedAs value mask instr :=
  encodedAs_of_mem_opcodeMap _ (List.mem_of_getElem? h)

theorem toNat_zextAddr (nnn : Addr) : (zextAddr nnn).toNat = nnn.toNat :=
  BitVec.toNat_setWidth_of_le (by decide)

/-- `zextAddr_add_zextByte` on naturals. -/
theorem toNat_zextAddr_add_zextByte (nnn : Addr) (b : Byte) :
    (zextAddr nnn + zextByte b).toNat = nnn.toNat + b.toNat := by
  rw [zextAddr_add_zextByte, BitVec.toNat_ofNat, Nat.mod_eq_of_lt (by omega)]

theorem State.setPc_self (s : State) : s.setPc s.pc = s := rfl

theorem exec_jp (nnn : Addr) (s : State) : exec (.jp nnn) s = .next (s.setPc (zextAddr nnn)) := rfl

/-- `SP` goes down modulo 16 (10_state.md R29). -/
theorem State.pop_sp_val (s : State) : s.pop.sp.val = (s.sp.val + 15) % 16 := by
  rw [State.pop_sp, Fin.sub_def, Nat.add_comm]
  rfl

/-- A pop undoes what a push did to `SP`, the wrap from 15 to 0 included. -/
theorem State.pop_sp_of_sp_eq_add_one {s t : State} (h : t.sp = s.sp + 1) : t.pop.sp = s.sp := by
  rw [State.pop_sp, h, add_sub_cancel_right]

theorem State.slot_push_same (s : State) (w : Word) : (s.push w).slot s.sp = w := by
  rw [State.slot_push, if_pos rfl]

theorem State.slot_push_other (s : State) (w : Word) {j : Fin 16} (h : j ≠ s.sp) : (s.push w).slot j = s.slot j := by
  rw [State.slot_push, if_neg h]

/-- What a skip instruction does, from its condition `c`: it completes and changes `PC` alone, by 4 where `P` says that
`c` holds and by 2 where `Q` says that it does not (40_cycle.md R114). -/
theorem exec_skip {i : Instr} {s : State} {c : Bool} {P Q : Prop} (h : exec i s = .next (s.skipIf c))
    (hP : P → c = true) (hQ : Q → c = false) :
    ∃ t, exec i s = .next t ∧ UnchangedBut [.pc] s t ∧ (P → t.pc = s.pc + 4) ∧ (Q → t.pc = s.pc + 2) := by
  refine ⟨_, h, skipIf_unchanged s c, fun hp => ?_, fun hq => ?_⟩
  · rw [hP hp]; rfl
  · rw [hQ hq]; rfl

/-! ### Return, jumps and call (O21 to O23, O26, O27) -/

/-- Settles O21: the pop moves `SP` alone, then the slot at the new `SP` is put into `PC`. -/
theorem returnPopsTheStack : Obligations.ReturnPopsTheStack :=
  ⟨encodedAs_of_getElem? (n := 1) rfl,
    fun s => ⟨_, rfl, s.pop_sp_val, rfl, (pop_unchanged s).trans (setPc_unchanged _ _)⟩⟩

/-- Settles O22: `PC` is all a jump sets, so one to the address in `PC` already sets nothing. -/
theorem jumpSetsThePc : Obligations.JumpSetsThePc := by
  refine ⟨encodedAs_of_getElem? (n := 2) rfl, fun nnn s => ⟨?_, fun hself => ?_⟩⟩
  · exact ⟨_, rfl, toNat_zextAddr nnn, setPc_unchanged s _⟩
  · have hpc : zextAddr nnn = s.pc := BitVec.eq_of_toNat_eq ((toNat_zextAddr nnn).trans hself)
    rw [exec_jp, hpc, State.setPc_self]

/-- Settles O23: the push writes the slot at `SP` and no other, then `PC` is set. -/
theorem callPushesTheNextAddress : Obligations.CallPushesTheNextAddress := by
  refine ⟨encodedAs_of_getElem? (n := 3) rfl, fun nnn s => ⟨_, rfl, ?_, ?_, ?_, toNat_zextAddr nnn, ?_⟩⟩
  · rw [State.setPc_slot, State.slot_push_same, BitVec.toNat_add]
    rfl
  · exact fun j hj => s.slot_push_other _ hj
  · exact Fin.val_add s.sp 1
  · exact (push_unchanged s _).trans (setPc_unchanged _ _)

/-- Settles O26: the sum fits 16 bits, and its greatest value is 0xFFF + 0xFF. -/
theorem jumpPlusV0 : Obligations.JumpPlusV0 := by
  refine ⟨encodedAs_of_getElem? (n := 20) rfl, fun nnn s => ?_⟩
  have hsum := toNat_zextAddr_add_zextByte nnn (s.reg 0)
  refine ⟨_, rfl, hsum, ?_, setPc_unchanged s _⟩
  rw [State.setPc_pc, hsum]
  omega

/-- Settles O27: the return pops the slot the call pushed to, and finds the address there. -/
theorem callThenReturn : Obligations.CallThenReturn := by
  refine fun nnn s => ⟨_, rfl, fun t' hsp hslot => ?_⟩
  have hpop : t'.pop.sp = s.sp := State.pop_sp_of_sp_eq_add_one hsp
  refine ⟨_, rfl, ?_, hpop⟩
  rw [State.setPc_pc, hpop, State.pop_slot, hslot, State.setPc_slot, State.slot_push_same]

/-! ### Skips (O24, O25) -/

/-- Settles O24: each skips on its condition, the equality test or its negation. -/
theorem skipsOnAnImmediate : Obligations.SkipsOnAnImmediate :=
  ⟨encodedAs_of_getElem? (n := 4) rfl, encodedAs_of_getElem? (n := 5) rfl, fun _ _ _ =>
    ⟨exec_skip rfl beq_iff_eq.2 beq_eq_false_iff_ne.2, exec_skip rfl bne_iff_ne.2 bne_eq_false_iff_eq.2⟩⟩

/-- Settles O25: as for the skips on an immediate, with the second register in the immediate's place. -/
theorem skipsOnRegisters : Obligations.SkipsOnRegisters :=
  ⟨encodedAs_of_getElem? (n := 6) rfl, encodedAs_of_getElem? (n := 18) rfl, fun _ _ _ =>
    ⟨exec_skip rfl beq_iff_eq.2 beq_eq_false_iff_ne.2, exec_skip rfl bne_iff_ne.2 bne_eq_false_iff_eq.2⟩⟩

end Sys2Proof.Machine

/-! Proofs of the family `42_alu.md`: the loads, the ALU with its flag, and the random byte. -/

namespace Sys2Proof.Machine

/-! ### The three ways of writing the result -/

section ResultAndFlag

variable {i : Instr} {s : State} {x : Reg} {a f : Byte}

/-- An instruction that writes `Vx` alone, `VF` too when it is `Vx` (42_alu.md R150 to R152). -/
theorem exec_setReg (h : exec i s = .next (s.setReg x a).advance) :
    ∃ t, exec i s = .next t ∧ t.reg x = a ∧ t.pc = s.pc + 2 ∧ RegsUnchangedBut [x] s t ∧ UnchangedBut [.v, .pc] s t :=
  ⟨_, h, State.reg_setReg_same s x a, rfl, setReg_regsUnchanged s x a, (setReg_unchanged s x a).advance⟩

/-- An instruction that writes the flag last: it stands in `VF`, and the result in `Vx` unless the flag replaced it. -/
theorem exec_setResultThenFlag (h : exec i s = .next (s.setResultThenFlag x a f).advance) :
    ∃ t, exec i s = .next t ∧ (x ≠ VF → t.reg x = a) ∧ t.reg VF = f ∧ t.pc = s.pc + 2 ∧
      RegsUnchangedBut [x, VF] s t ∧ UnchangedBut [.v, .pc] s t := by
  refine ⟨_, h, fun hx => ?_, ?_, rfl, setResultThenFlag_regsUnchanged s x a f,
    (setResultThenFlag_unchanged s x a f).advance⟩
  · rw [State.advance_reg, State.reg_setResultThenFlag, if_neg hx, if_pos rfl]
  · rw [State.advance_reg, State.reg_setResultThenFlag, if_pos rfl]

/-- An instruction that writes the result last: it stands in `Vx`, and the flag in `VF` unless the result replaced it. -/
theorem exec_setFlagThenResult (h : exec i s = .next (s.setFlagThenResult x a f).advance) :
    ∃ t, exec i s = .next t ∧ t.reg x = a ∧ (x ≠ VF → t.reg VF = f) ∧ t.pc = s.pc + 2 ∧
      RegsUnchangedBut [x, VF] s t ∧ UnchangedBut [.v, .pc] s t := by
  refine ⟨_, h, ?_, fun hx => ?_, rfl, setFlagThenResult_regsUnchanged s x a f,
    (setFlagThenResult_unchanged s x a f).advance⟩
  · rw [State.advance_reg, State.reg_setFlagThenResult, if_pos rfl]
  · rw [State.advance_reg, State.reg_setFlagThenResult, if_neg hx.symm, if_pos rfl]

end ResultAndFlag

/-! ### The flag and the result as numbers -/

theorem toNat_flagByte (c : Bool) : (flagByte c).toNat = if c then 1 else 0 := by cases c <;> rfl

theorem toNat_carryFlag (a b : Byte) : (carryFlag a b).toNat = if 255 < a.toNat + b.toNat then 1 else 0 := by
  simp [carryFlag, toNat_flagByte]

theorem toNat_notBorrowFlag (a b : Byte) : (notBorrowFlag a b).toNat = if b.toNat ≤ a.toNat then 1 else 0 := by
  simp [notBorrowFlag, toNat_flagByte]

theorem toNat_shiftOutRight (b : Byte) : (shiftOutRight b).toNat = b.toNat % 2 := by
  simp [shiftOutRight, Nat.and_one_is_mod]

/-- Bit 7 is the whole of a byte divided by 128. -/
theorem toNat_shiftOutLeft (b : Byte) : (shiftOutLeft b).toNat = b.toNat / 128 := by
  have h : b.toNat / 128 < 2 := by omega
  simp [shiftOutLeft, Nat.and_one_is_mod, Nat.shiftRight_eq_div_pow, Nat.mod_eq_of_lt h]

/-- A difference modulo 256, without a negative number. -/
theorem toNat_byte_sub (a b : Byte) : (a - b).toNat = (a.toNat + 256 - b.toNat) % 256 := by
  rw [BitVec.toNat_sub', Nat.add_sub_assoc (by omega)]

theorem toNat_byte_shiftRight_one (b : Byte) : (b >>> 1).toNat = b.toNat / 2 := by
  rw [BitVec.toNat_ushiftRight, Nat.shiftRight_eq_div_pow, pow_one]

theorem toNat_byte_shiftLeft_one (b : Byte) : (b <<< 1).toNat = b.toNat * 2 % 256 := by
  rw [BitVec.toNat_shiftLeft, Nat.shiftLeft_eq, pow_one]

/-! ### Loads and immediate add (O28) -/

/-- Settles O28: each writes `Vx` alone, and the sum of bytes is the sum modulo 256. -/
theorem loadsAndImmediateAdd : Obligations.LoadsAndImmediateAdd := by
  refine ⟨encodedAs_of_getElem? (n := 7) rfl, encodedAs_of_getElem? (n := 8) rfl, encodedAs_of_getElem? (n := 9) rfl,
    fun x y kk s => ⟨exec_setReg rfl, ?_, exec_setReg rfl⟩⟩
  obtain ⟨t, hexec, hx, hframe⟩ := exec_setReg (i := .addImm x kk) (s := s) rfl
  exact ⟨t, hexec, hx ▸ BitVec.toNat_add _ _, hframe⟩

/-! ### The operations that write the flag last (O29 to O31) -/

/-- The bitwise operations, from what theirs does to one bit. -/
theorem bitwiseThenClear_of_exec {i : Reg → Reg → Instr} {op : Bool → Bool → Bool} {byteOp : Byte → Byte → Byte}
    (hexec : ∀ x y s, exec (i x y) s = .next (s.setResultThenFlag x (byteOp (s.reg x) (s.reg y)) clearedFlag).advance)
    (hbit : ∀ a b k, (byteOp a b).getLsbD k = op (a.getLsbD k) (b.getLsbD k)) : BitwiseThenClear i op := by
  intro x y s
  obtain ⟨t, ht, hx, hframe⟩ := exec_setResultThenFlag (hexec x y s)
  exact ⟨t, ht, fun hne k _ => by rw [hx hne, hbit], hframe⟩

/-- Settles O29: OR, AND and XOR of bytes act on each bit alone, and the cleared flag is the last write. -/
theorem bitwiseOperationsClearVF : Obligations.BitwiseOperationsClearVF :=
  ⟨encodedAs_of_getElem? (n := 10) rfl, encodedAs_of_getElem? (n := 11) rfl, encodedAs_of_getElem? (n := 12) rfl,
    bitwiseThenClear_of_exec (fun _ _ _ => rfl) fun _ _ _ => BitVec.getLsbD_or,
    bitwiseThenClear_of_exec (fun _ _ _ => rfl) fun _ _ _ => BitVec.getLsbD_and,
    bitwiseThenClear_of_exec (fun _ _ _ => rfl) fun _ _ _ => BitVec.getLsbD_xor⟩

/-- Settles O30: the sum of bytes is the sum modulo 256, and the carry is the last write. -/
theorem addSetsTheCarry : Obligations.AddSetsTheCarry := by
  refine ⟨encodedAs_of_getElem? (n := 13) rfl, fun x y s => ?_⟩
  obtain ⟨t, hexec, hx, hflag, hframe⟩ := exec_setResultThenFlag (i := .addReg x y) (s := s) rfl
  refine ⟨t, hexec, fun hne => ?_, ?_, hframe⟩
  · rw [hx hne, BitVec.toNat_add]
  · rw [hflag, toNat_carryFlag]

/-- The subtractions, from which register is taken from which. -/
theorem subtractsWithNotBorrow_of_exec {i : Reg → Reg → Instr} {minuend subtrahend : Reg → Reg → Reg}
    (hexec : ∀ x y s, exec (i x y) s =
      .next (s.setResultThenFlag x (s.reg (minuend x y) - s.reg (subtrahend x y))
        (notBorrowFlag (s.reg (minuend x y)) (s.reg (subtrahend x y)))).advance) :
    SubtractsWithNotBorrow i minuend subtrahend := by
  intro x y s
  obtain ⟨t, ht, hx, hflag, hframe⟩ := exec_setResultThenFlag (hexec x y s)
  refine ⟨t, ht, fun hne => ?_, ?_, hframe⟩
  · rw [hx hne, toNat_byte_sub]
  · rw [hflag, toNat_notBorrowFlag]

/-- Settles O31: SUB and SUBN are one subtraction with its operands in the one and the other order. -/
theorem subtractionsSetNotBorrow : Obligations.SubtractionsSetNotBorrow :=
  ⟨encodedAs_of_getElem? (n := 14) rfl, encodedAs_of_getElem? (n := 16) rfl,
    subtractsWithNotBorrow_of_exec fun _ _ _ => rfl, subtractsWithNotBorrow_of_exec fun _ _ _ => rfl⟩

/-! ### The shifts, which write the result last (O32) -/

/-- Settles O32: a shift by one halves or doubles the byte, and the bit it moves out is written before the result. -/
theorem shiftsReadVyAndCaptureTheBit : Obligations.ShiftsReadVyAndCaptureTheBit := by
  refine ⟨encodedAs_of_getElem? (n := 15) rfl, encodedAs_of_getElem? (n := 17) rfl, fun x y s => ⟨?shr, ?shl⟩⟩
  case shr =>
    obtain ⟨t, hexec, hx, hflag, hframe⟩ := exec_setFlagThenResult (i := .shr x y) (s := s) rfl
    refine ⟨t, hexec, ?_, fun hne => ?_, hframe⟩
    · rw [hx, toNat_byte_shiftRight_one]
    · rw [hflag hne, toNat_shiftOutRight]
  case shl =>
    obtain ⟨t, hexec, hx, hflag, hframe⟩ := exec_setFlagThenResult (i := .shl x y) (s := s) rfl
    refine ⟨t, hexec, ?_, fun hne => ?_, hframe⟩
    · rw [hx, toNat_byte_shiftLeft_one]
    · rw [hflag hne, toNat_shiftOutLeft]

/-! ### The random byte (O33) -/

/-- Settles O33: the byte drawn is the stream's next, and `Vx` and the draw counter are all that is written before the
advance. -/
theorem randomByteIsMasked : Obligations.RandomByteIsMasked := by
  refine ⟨encodedAs_of_getElem? (n := 21) rfl, fun x kk s => ⟨_, Config.rand s.draws, rfl, rfl, rfl, fun k _ => ?_, rfl,
    setReg_regsUnchanged s x _, ?_⟩⟩
  · rw [randomInto, State.advance_reg, State.countDraw_reg, State.reg_setReg_same, BitVec.getLsbD_and]
  · exact ((setReg_unchanged s x _).trans (countDraw_unchanged _)).advance.mono (by simp)

end Sys2Proof.Machine

/-! Proofs of the family `43_index_memory.md`: the instructions that set `I`, the decimal digits, the store and the load of
the registers, and the round trip of a store and its load. -/

namespace Sys2Proof.Machine

/-! ### What the instructions that set `I` share, and the values they set (O34) -/

theorem exec_setI {i : Instr} {s : State} {w : Word} {n : Nat} (h : exec i s = .next (s.setI w).advance)
    (hn : w.toNat = n) :
    ∃ t, exec i s = .next t ∧ t.i.toNat = n ∧ t.pc = s.pc + 2 ∧ UnchangedBut [.i, .pc] s t :=
  ⟨_, h, hn, rfl, (setI_unchanged s w).advance⟩

theorem toNat_add_zextByte (w : Word) (b : Byte) : (w + zextByte b).toNat = (w.toNat + b.toNat) % 65536 := by
  rw [BitVec.toNat_add, zextByte, BitVec.toNat_setWidth_of_le (by decide)]

theorem toNat_glyphAddr (b : Byte) : (glyphAddr b).toNat = b.toNat % 16 * 5 :=
  (BitVec.toNat_ofNat _ _).trans (Nat.mod_eq_of_lt (by omega))

/-- Settles O34: each sets `I` alone, to a word whose value is the one stated. -/
theorem indexRegisterInstructions : Obligations.IndexRegisterInstructions :=
  ⟨encodedAs_of_getElem? (n := 19) rfl, encodedAs_of_getElem? (n := 29) rfl, encodedAs_of_getElem? (n := 30) rfl,
    fun nnn x s => ⟨exec_setI rfl (toNat_zextAddr nnn), exec_setI rfl (toNat_add_zextByte s.i (s.reg x)),
      exec_setI rfl (toNat_glyphAddr (s.reg x))⟩⟩

/-! ### An instruction with a check: it completes or halts as its check says -/

theorem exec_of_check_none {i : Instr} {s u : State} {c : Option Raised} (h : exec i s = afterCheck c s u)
    (hc : c = none) : exec i s = .next u := by
  rw [h, hc, afterCheck_none]

theorem exec_haltedBy {i : Instr} {s u : State} {c : Option Raised} {e : Raised} (h : exec i s = afterCheck c s u)
    (hc : c = some e) : ∃ t, exec i s = .next t ∧ HaltedBy e.kind e.addr s t :=
  ⟨s.haltWith e, by rw [h, hc, afterCheck_some], haltWith_haltedBy s e⟩

/-! ### The bytes after a block of stores -/

/-- A block of writable bytes ends inside memory. -/
theorem add_le_of_writable {s : State} {base len : Nat} (h0 : 0 < len) (h : ∀ k < len, Writable s (base + k)) :
    base + len ≤ 4096 := by
  obtain ⟨hlast, _⟩ := h (len - 1) (by omega)
  omega

section BlockOfStores

variable {s : State} {base : Nat} {bs : List Byte}

/-- A store that is not dropped leaves its byte. -/
theorem byteAt_doWrites_of_not_dropped (hin : base + bs.length ≤ 4096) {k : Nat} {b : Byte} (hk : bs[k]? = some b)
    (hd : ¬ Dropped s (base + k)) : (s.doWrites base bs).byteAt (base + k) = b := by
  obtain ⟨hlt, _⟩ := List.getElem?_eq_some_iff.1 hk
  have hkept : writeIgnored s.params (base + k) = false := by
    rwa [← writeIgnored_iff, Bool.not_eq_true] at hd
  rw [State.byteAt_doWrites _ _ _ _ hin, if_pos ⟨by omega, by omega, hkept⟩, Nat.add_sub_cancel_left, hk,
    Option.getD_some]

/-- A store that is dropped leaves the byte as it was. -/
theorem byteAt_doWrites_of_dropped (hin : base + bs.length ≤ 4096) {a : Nat} (hd : Dropped s a) :
    (s.doWrites base bs).byteAt a = s.byteAt a := by
  rw [State.byteAt_doWrites _ _ _ _ hin, if_neg]
  rintro ⟨_, _, hkept⟩
  rw [(writeIgnored_iff s a).2 hd] at hkept
  cases hkept

/-- A byte outside the block is as it was. -/
theorem byteAt_doWrites_outside (hin : base + bs.length ≤ 4096) {a : Nat} (ha : a < base ∨ base + bs.length ≤ a) :
    (s.doWrites base bs).byteAt a = s.byteAt a := by
  rw [State.byteAt_doWrites _ _ _ _ hin, if_neg (by omega)]

end BlockOfStores

/-! ### The decimal digits (O35) -/

theorem toNat_ofNat_hundreds (b : Byte) : (BitVec.ofNat 8 (b.toNat / 100)).toNat = b.toNat / 100 :=
  (BitVec.toNat_ofNat _ _).trans (Nat.mod_eq_of_lt (by omega))

theorem toNat_ofNat_digit (n : Nat) : (BitVec.ofNat 8 (n % 10)).toNat = n % 10 :=
  (BitVec.toNat_ofNat _ _).trans (Nat.mod_eq_of_lt (by omega))

/-- Settles O35: the block of stores is the three digits, checked before any is written. -/
theorem storeDecimalDigits : Obligations.StoreDecimalDigits := by
  refine ⟨encodedAs_of_getElem? (n := 31) rfl, fun x s => ⟨fun hw => ?_, fun k hk hbelow hbad => ?_⟩⟩
  · have hin : s.base + (decimalDigits (s.reg x)).length ≤ 4096 := add_le_of_writable (Nat.succ_pos 2) hw
    refine ⟨_, exec_of_check_none rfl ((checkWrites_none_iff s _ _).2 hw), fun k _ hd => ?_, fun hd => ?_, fun hd => ?_,
      fun hd => ?_, fun a ha => ?_, ?_, (doWrites_unchanged s _ _).advance⟩
    · exact byteAt_doWrites_of_dropped hin hd
    · exact (congrArg _ (byteAt_doWrites_of_not_dropped hin (k := 0) rfl hd)).trans (toNat_ofNat_hundreds _)
    · exact (congrArg _ (byteAt_doWrites_of_not_dropped hin rfl hd)).trans (toNat_ofNat_digit _)
    · exact (congrArg _ (byteAt_doWrites_of_not_dropped hin rfl hd)).trans (toNat_ofNat_digit _)
    · exact byteAt_doWrites_outside hin ha
    · rw [State.advance_pc, State.doWrites_pc]
  · exact exec_haltedBy rfl (checkWrites_some hk hbelow hbad)

/-! ### The store of the registers (O36) -/

theorem State.toNat_baseAfter (s : State) (x : Reg) : (s.baseAfter x).toNat = (s.base + x.val + 1) % 65536 :=
  BitVec.toNat_ofNat _ _

/-- Settles O36: the block of stores is the registers in order, checked before any is written. -/
theorem storeRegisterBlock : Obligations.StoreRegisterBlock := by
  refine ⟨encodedAs_of_getElem? (n := 32) rfl, fun x s => ⟨fun hw => ?_, fun k hk hbelow hbad => ?_⟩⟩
  · have hw : ∀ k < x.val + 1, Writable s (s.base + k) := fun k hk => hw k (Nat.le_of_lt_succ hk)
    have hlen := s.length_regsUpTo x
    have hin : s.base + (s.regsUpTo x).length ≤ 4096 := hlen ▸ add_le_of_writable (Nat.succ_pos _) hw
    refine ⟨_, exec_of_check_none rfl ((checkWrites_none_iff s _ _).2 hw), fun r hr hd => ?_, fun r _ hd => ?_,
      fun a ha => ?_, s.toNat_baseAfter x, ?_, ((doWrites_unchanged s _ _).trans (setI_unchanged _ _)).advance⟩
    · exact byteAt_doWrites_of_not_dropped hin (s.getElem?_regsUpTo x hr r.isLt) hd
    · exact byteAt_doWrites_of_dropped hin hd
    · exact byteAt_doWrites_outside hin (by omega)
    · rw [State.advance_pc, State.setI_pc, State.doWrites_pc]
  · exact exec_haltedBy rfl (checkWrites_some (Nat.lt_succ_of_le hk) hbelow hbad)

/-! ### The load of the registers (O37) -/

section Loads

variable (s : State) {base len : Nat} {r : Reg}

theorem State.reg_setRegs_bytesAt (h : r.val < len) :
    (s.setRegs (s.bytesAt base len)).reg r = s.byteAt (base + r.val) := by
  rw [State.reg_setRegs, State.getElem?_bytesAt _ _ _ _ h, Option.getD_some]

theorem State.reg_setRegs_above {bs : List Byte} (h : bs.length ≤ r.val) : (s.setRegs bs).reg r = s.reg r := by
  rw [State.reg_setRegs, List.getElem?_eq_none h, Option.getD_none]

end Loads

/-- Settles O37: the bytes are checked, then each goes to its register; no register above `Vx` has one. -/
theorem loadRegisterBlock : Obligations.LoadRegisterBlock := by
  refine ⟨encodedAs_of_getElem? (n := 33) rfl, fun x s => ⟨fun hin => ?_, fun hout => ?_⟩⟩
  · refine ⟨_, exec_of_check_none rfl (checkReads_none (.inr hin)), fun r hr => ?_, fun r hr => ?_, s.toNat_baseAfter x,
      rfl, ((setRegs_unchanged s _).trans (setI_unchanged _ _)).advance⟩
    · exact s.reg_setRegs_bytesAt (Nat.lt_succ_of_le hr)
    · exact s.reg_setRegs_above ((s.length_bytesAt _ _).trans_le hr)
  · exact exec_haltedBy rfl (checkReads_some (Nat.succ_pos _) (Nat.lt_succ_of_le hout))

/-! ### A load after a store (O38) -/

/-- Settles O38, from O36 and O37: the load reads at the store's addresses the bytes the store left there. No address
reaches 4096, so `I + x + 1` is not reduced. -/
theorem storeThenLoadRestoresRegisters : Obligations.StoreThenLoadRestoresRegisters := by
  intro x s hblock
  obtain ⟨⟨hin, _⟩, _⟩ := hblock x.val le_rfl
  have hmod : (s.base + x.val + 1) % 65536 = s.base + x.val + 1 := Nat.mod_eq_of_lt (by omega)
  obtain ⟨t, hstore, hbytes, _, _, hi, _⟩ := (storeRegisterBlock.2 x s).1 fun k hk => (hblock k hk).1
  refine ⟨t, hstore, hi.trans hmod, fun t' hi' hkept => ?_⟩
  have hbase : t'.base = s.base := congrArg BitVec.toNat hi'
  obtain ⟨u, hload, hregs, _, hiu, _⟩ := (loadRegisterBlock.2 x t').1 (hbase ▸ hin)
  rw [hbase] at hregs hiu
  refine ⟨u, hload, hiu.trans hmod, fun r hr => ?_⟩
  calc u.reg r = t'.byteAt (s.base + r.val) := hregs r hr
    _ = t.byteAt (s.base + r.val) := hkept r.val hr
    _ = s.reg r := hbytes r hr (hblock r.val hr).2

end Sys2Proof.Machine

/-! Proofs of the family `44_display.md`: the clear, the draw and its collision, who reads the display, and the repaint
query with the frame it ends. -/

namespace Sys2Proof.Machine

/-! ### The clear (O39) -/

/-- Settles O39: the display shown is the zero vector, and showing one sets `DRAW` whatever it was before. -/
theorem clearTurnsEveryPixelOff : Obligations.ClearTurnsEveryPixelOff :=
  ⟨encodedAs_of_getElem? (n := 0) rfl,
    fun s => ⟨_, rfl, fun _ _ => BitVec.getLsbD_zero, rfl, rfl, (showDisplay_unchanged s 0).advance⟩⟩

/-! ### The draw (O40) -/

theorem flagByte_eq_one_iff (c : Bool) : flagByte c = 1 ↔ c = true := by cases c <;> decide

theorem flagByte_eq_zero_iff (c : Bool) : flagByte c = 0 ↔ c = false := by cases c <;> decide

/-- Two conditions on a pixel that agree on the display are met by some pixel of it alike. -/
theorem exists_pixel_congr {P Q : Nat → Nat → Prop} (h : ∀ px < 64, ∀ py < 32, (P px py ↔ Q px py)) :
    (∃ px < 64, ∃ py < 32, P px py) ↔ ∃ px < 64, ∃ py < 32, Q px py :=
  exists_congr fun px => and_congr_right fun hx => exists_congr fun py => and_congr_right fun hy => h px hx py hy

/-- The state a `Dxyn` that does not fault leaves (`exec_drw`). -/
def State.drawn (s : State) (x y : Reg) (n : Nat) : State :=
  ((s.showDisplay (s.drawSprite x y n).disp).setReg VF (flagByte (s.drawSprite x y n).coll)).advance

section Draw

variable {s : State} {x y : Reg} {n : Nat}

/-- A `Dxyn` draws when it has no row or its rows lie in memory. -/
theorem exec_drw (h : n = 0 ∨ s.base + n ≤ 4096) : exec (.drw x y n) s = .next (s.drawn x y n) :=
  exec_of_check_none rfl (checkReads_none h)

theorem State.pixelAt_drawn {px py : Nat} (hx : px < 64) (hy : py < 32) :
    (s.drawn x y n).pixelAt px py = (s.pixelAt px py ^^ spriteCovers s x y n px py) :=
  (s.drawSprite_eq x y n).1 px hx py hy

theorem State.drawn_VF : (s.drawn x y n).reg VF = flagByte (s.drawSprite x y n).coll :=
  State.reg_setReg_same _ _ _

theorem State.drawn_VF_eq_one_iff :
    (s.drawn x y n).reg VF = 1 ↔ ∃ px < 64, ∃ py < 32, s.pixelAt px py = true ∧ spriteCovers s x y n px py = true := by
  rw [State.drawn_VF, flagByte_eq_one_iff, (s.drawSprite_eq x y n).2]

theorem State.drawn_VF_eq_zero_iff : (s.drawn x y n).reg VF = 0 ↔ ¬ (s.drawn x y n).reg VF = 1 := by
  rw [State.drawn_VF, flagByte_eq_zero_iff, flagByte_eq_one_iff, Bool.not_eq_true]

theorem State.drawn_regsUnchanged : RegsUnchangedBut [VF] s (s.drawn x y n) :=
  setReg_regsUnchanged (s.showDisplay _) VF _

theorem State.drawn_unchanged : UnchangedBut [.disp, .draw, .v, .pc] s (s.drawn x y n) :=
  ((showDisplay_unchanged s _).trans (setReg_unchanged _ _ _)).advance

end Draw

/-- Settles O40: the check of all n rows decides between the draw and the halt, and the drawing loop is the XOR with the
sprite (`State.drawSprite_eq`). -/
theorem drawXorsTheClippedSprite : Obligations.DrawXorsTheClippedSprite := by
  refine ⟨encodedAs_of_getElem? (n := 22) rfl, fun x y n s => ⟨fun hin => ?_, fun h0 hout => ?_⟩⟩
  · exact ⟨_, exec_drw hin, fun px hx py hy => State.pixelAt_drawn hx hy, State.drawn_VF_eq_one_iff,
      or_iff_not_imp_right.2 State.drawn_VF_eq_zero_iff.2, rfl, rfl, State.drawn_regsUnchanged, State.drawn_unchanged⟩
  · exact exec_haltedBy rfl (checkReads_some h0 hout)

/-! ### The collision, and who reads the display (O41) -/

/-- A pixel the draw turns off is one that was on and is covered. -/
theorem State.drawn_turnsOff_iff {s : State} {x y : Reg} {n px py : Nat} (hx : px < 64) (hy : py < 32) :
    s.pixelAt px py = true ∧ (s.drawn x y n).pixelAt px py = false ↔
      s.pixelAt px py = true ∧ spriteCovers s x y n px py = true := by
  rw [State.pixelAt_drawn hx hy]
  exact and_congr_right fun hon => by rw [hon, Bool.true_xor, Bool.not_eq_false']

/-- `DISP <- d`, `DRAW` as it is: the display set apart from the draw flag. -/
def State.withDisplay (s : State) (d : Display) : State := { s with disp := d }

theorem withDisplay_unchanged (s : State) (d : Display) : UnchangedBut [.disp] s (s.withDisplay d) := by
  intro f hf
  cases f
  case disp => simp at hf
  case mem | v | stack => exact fun _ => rfl
  all_goals exact Eq.refl _

section WithDisplay

variable {s t u : State} (d : Display)

/-- Stores do not read the display. -/
theorem doWrites_withDisplay (s : State) (a : Nat) (bs : List Byte) :
    (s.withDisplay d).doWrites a bs = (s.doWrites a bs).withDisplay d := by
  have hmem : ((s.withDisplay d).doWrites a bs).mem = (s.doWrites a bs).mem := State.doWrites_mem_congr a bs rfl rfl
  rw [State.doWrites_eq, hmem, State.doWrites_eq s]
  rfl

/-- A checked effect that commutes with a change of the display gives an answer that does. -/
theorem afterCheck_withDisplay {c : Option Raised} (h : afterCheck c s t = .next u) :
    afterCheck c (s.withDisplay d) (t.withDisplay d) = .next (u.withDisplay d) := by
  rcases afterCheck_cases h with ⟨rfl, rfl⟩ | ⟨e, rfl, rfl⟩ <;> rfl

/-- A key skip does not read the display. -/
theorem skipOnKey_withDisplay {b : Bool} {x : Reg} (h : skipOnKey b x s = .next t) :
    skipOnKey b x (s.withDisplay d) = .next (t.withDisplay d) := by
  have hkey : pressed (s.withDisplay d).params (s.withDisplay d).key ((s.withDisplay d).reg x) =
    pressed s.params s.key (s.reg x) := rfl
  unfold skipOnKey
  rw [hkey]
  rcases skipOnKey_cases h with ⟨e, he, rfl⟩ | ⟨q, hq, rfl⟩
  · rw [he]; rfl
  · rw [hq]; rfl

/-- The wait for a key does not read the display. -/
theorem execLdVxK_withDisplay {x : Reg} (h : execLdVxK x s = .next t) :
    execLdVxK x (s.withDisplay d) = .next (t.withDisplay d) := by
  have hkey : releasedKey (s.withDisplay d).keyp (s.withDisplay d).key = releasedKey s.keyp s.key := rfl
  unfold execLdVxK
  rw [hkey]
  rcases execLdVxK_cases h with ⟨hk, rfl⟩ | ⟨k, hk, rfl⟩
  · rw [hk]
  · rw [hk]; rfl

/-- With another display in the state an instruction that neither draws nor clears gives the same answer with that
display. -/
theorem exec_withDisplay {i : Instr} (hdraw : ∀ x y n, i ≠ .drw x y n) (hclear : i ≠ .cls) (h : exec i s = .next t) :
    exec i (s.withDisplay d) = .next (t.withDisplay d) := by
  cases i
  case drw x y n => exact absurd rfl (hdraw x y n)
  case cls => exact absurd rfl hclear
  case skp | sknp => exact skipOnKey_withDisplay d h
  case ldVxK => exact execLdVxK_withDisplay d h
  case ldB x =>
    simp only [exec, execLdB, doWrites_withDisplay]
    exact afterCheck_withDisplay d h
  case storeRegs x =>
    simp only [exec, execStoreRegs, doWrites_withDisplay]
    exact afterCheck_withDisplay d h
  case loadRegs => exact afterCheck_withDisplay d h
  all_goals cases h; rfl

/-- A clear answers the same state whatever the display was. -/
theorem exec_cls_withDisplay (s : State) : exec .cls (s.withDisplay d) = exec .cls s := rfl

end WithDisplay

/-- Settles O41: the covered pixels that were on are the ones turned off; every instruction but the draw commutes with a
change of the display, or clears it. -/
theorem collisionIsAPixelTurnedOff : Obligations.CollisionIsAPixelTurnedOff := by
  constructor
  · intro x y n s t h hin
    rw [exec_drw hin] at h
    cases h
    have hflag := (State.drawn_VF_eq_one_iff (s := s) (x := x) (y := y) (n := n)).trans
      (exists_pixel_congr fun px hx py hy => (State.drawn_turnsOff_iff hx hy).symm)
    exact ⟨hflag, State.drawn_VF_eq_zero_iff.trans (not_congr hflag)⟩
  · intro i s t d hi h
    by_cases hclear : i = .cls
    · subst hclear
      exact ⟨t, (exec_cls_withDisplay d s).trans h, UnchangedBut.refl _ t⟩
    · exact ⟨_, exec_withDisplay d hi hclear h, withDisplay_unchanged t d⟩

/-! ### A draw on a clear display, and a draw done twice (O42, O43) -/

theorem State.pixelAt_congr {s t : State} (h : t.disp = s.disp) (px py : Nat) : t.pixelAt px py = s.pixelAt px py :=
  congrArg (BitVec.getLsbD · (pixelIndex px py)) h

theorem State.pixelAt_of_disp_eq_zero {s : State} (h : s.disp = 0) (px py : Nat) : s.pixelAt px py = false := by
  rw [State.pixelAt, h]
  exact BitVec.getLsbD_zero

/-- What the sprite covers depends on `I`, the bytes, `V[x]`, `V[y]` and the parameters alone. -/
theorem spriteCovers_congr {s t : State} {x y : Reg} (hi : t.i = s.i) (hmem : ∀ a, t.byteAt a = s.byteAt a)
    (hx : t.reg x = s.reg x) (hy : t.reg y = s.reg y) (hparams : t.params = s.params) (n px py : Nat) :
    spriteCovers t x y n px py = spriteCovers s x y n px py := by
  simp only [spriteCovers, State.base, hi, hmem, hx, hy, hparams]

/-- Settles O42: on a display with every pixel off the XOR is the sprite itself, and no pixel can collide. -/
theorem clearThenDrawShowsTheSprite : Obligations.ClearThenDrawShowsTheSprite := by
  refine fun s => ⟨_, rfl, fun _ _ => BitVec.getLsbD_zero, fun x y n t' hdisp hin => ?_⟩
  have hoff := State.pixelAt_of_disp_eq_zero hdisp
  refine ⟨_, exec_drw hin, ?_, fun px hx py hy => ?_⟩
  · rw [State.drawn_VF_eq_zero_iff, State.drawn_VF_eq_one_iff]
    rintro ⟨px, _, py, _, hon, _⟩
    rw [hoff] at hon
    cases hon
  · rw [State.pixelAt_drawn hx hy, hoff, Bool.false_xor]

/-- Settles O43: the second draw covers the pixels of the first, and XORs them back; a covered pixel is on between the two
exactly when it was off before. -/
theorem drawingTwiceRestoresTheDisplay : Obligations.DrawingTwiceRestoresTheDisplay := by
  refine fun x y n s hin => ⟨_, exec_drw hin, fun t' hdisp hi hmem hVx hVy hparams => ?_⟩
  have hcovers := spriteCovers_congr hi hmem hVx hVy hparams n
  have hbetween : ∀ px < 64, ∀ py < 32, t'.pixelAt px py = (s.pixelAt px py ^^ spriteCovers s x y n px py) :=
    fun px hx py hy => (State.pixelAt_congr hdisp px py).trans (State.pixelAt_drawn hx hy)
  have hbase : t'.base = s.base := congrArg BitVec.toNat hi
  refine ⟨_, exec_drw (hbase ▸ hin), fun px hx py hy => ?_, ?_⟩
  · rw [State.pixelAt_drawn hx hy, hbetween px hx py hy, hcovers, Bool.xor_assoc, Bool.xor_self, Bool.xor_false]
  · refine State.drawn_VF_eq_one_iff.trans (exists_pixel_congr fun px hx py hy => ?_)
    rw [hbetween px hx py hy, hcovers, and_comm]
    exact and_congr_right fun hset => by rw [hset, Bool.xor_true, Bool.not_eq_true']

/-! ### The repaint query, and the frame it ends (O49, O50) -/

theorem repaintQuery_unchanged (s : State) : UnchangedBut [.draw] s s.repaintQuery.2 := by
  intro f hf
  cases f
  case draw => simp at hf
  case mem | v | stack => exact fun _ => rfl
  all_goals exact Eq.refl _

/-- Settles O49: on a running block the action is the query, which clears `DRAW` alone. -/
theorem repaintQueryReadsAndClears : Obligations.RepaintQueryReadsAndClears :=
  fun s hrun => ⟨rfl, _, act_repaintQuery hrun, rfl, rfl, repaintQuery_unchanged s⟩

/-- A sequence of actions after another goes on from the state the first one leaves. -/
theorem runActions_append {actions : List Action} {s u : State} (h : runActions actions s = .next u)
    (rest : List Action) : runActions (actions ++ rest) s = runActions rest u := by
  induction actions generalizing s with
  | nil => cases h; rfl
  | cons a actions ih =>
    obtain ⟨t, ht⟩ := act_next a s
    rw [runActions_cons ht] at h
    rw [List.cons_append, runActions_cons ht, ih h]

/-- No sequence of actions changes a halted block (40_cycle.md R119, log 6). -/
theorem runActions_halted {s : State} {r : FaultRecord} (h : s.halt = some r) (actions : List Action) :
    runActions actions s = .next s := by
  induction actions with
  | nil => rfl
  | cons a rest ih => rw [runActions_cons (act_halted h a), ih]

/-- A running block answers the end of a frame with its repaint query, then its tick. -/
theorem runActions_query_tick {s : State} (h : s.halt = none) :
    runActions [.repaintQuery, .tick] s = .next s.repaintQuery.2.tick := by
  have hquery : s.repaintQuery.2.halt = none := h
  rw [runActions_cons (act_repaintQuery h), runActions_cons (act_tick hquery), runActions]

/-- Settles O50: the steps and edits lead to some state; were it halted the frame would end in it, so it runs, and the
query and the tick act on it. -/
theorem frameEndsWithQueryThenTick : Obligations.FrameEndsWithQueryThenTick := by
  intro edits s t hframe hrun
  obtain ⟨u, hu⟩ := neverStops s (edits.flatMap fun vs => vs.map Action.keyEdit ++ [Action.step])
  rw [frameActions, runActions_append hu] at hframe
  cases hhalt : u.halt with
  | some r =>
    rw [runActions_halted hhalt] at hframe
    cases hframe
    rw [hhalt] at hrun
    cases hrun
  | none =>
    rw [runActions_query_tick hhalt] at hframe
    cases hframe
    exact ⟨u, hu, hhalt, rfl⟩

end Sys2Proof.Machine

/-! Proofs of the family `45_input_timers.md`: the key test with its two skips, the wait for a released key, the timer
transfers, and the tick. -/

namespace Sys2Proof.Machine

/-! ### The key test under each policy, and the skips it decides (O44) -/

section KeyTest

variable {p : Params} {b : Byte} (key : Word)

theorem pressed_of_lt (h : b.toNat < 16) : pressed p key b = .ok (key.getLsbD b.toNat) := if_pos h

theorem pressed_of_notPressed (h : 16 ≤ b.toNat) (hpolicy : p.keyIndexPolicy = .notPressed) :
    pressed p key b = .ok false := by
  rw [pressed, if_neg (Nat.not_lt.2 h), hpolicy]

theorem pressed_of_mod16 (h : 16 ≤ b.toNat) (hpolicy : p.keyIndexPolicy = .mod16) :
    pressed p key b = .ok (key.getLsbD (b.toNat % 16)) := by
  rw [pressed, if_neg (Nat.not_lt.2 h), hpolicy]

theorem pressed_of_fault (h : 16 ≤ b.toNat) (hpolicy : p.keyIndexPolicy = .fault) :
    pressed p key b = .error ⟨.keyIndex, b.toNat⟩ := by
  rw [pressed, if_neg (Nat.not_lt.2 h), hpolicy]

end KeyTest

theorem skipOnKey_of_ok {s : State} {x : Reg} {down : Bool} (h : pressed s.params s.key (s.reg x) = .ok down)
    (wanted : Bool) : skipOnKey wanted x s = .next (s.skipIf (down == wanted)) := by
  rw [skipOnKey, h]

theorem skipOnKey_of_error {s : State} {x : Reg} {e : Raised} (h : pressed s.params s.key (s.reg x) = .error e)
    (wanted : Bool) : skipOnKey wanted x s = .next (s.haltWith e) := by
  rw [skipOnKey, h]

/-- The key skips, from the key state that each skips on. -/
theorem skipsOnKey_of_exec {i : Reg → Instr} {wanted : Bool} (hexec : ∀ x s, exec (i x) s = skipOnKey wanted x s) :
    SkipsOnKey i wanted := by
  refine fun x s => ⟨fun down hdown => ?_, fun hk hpolicy => ?_⟩
  · have htest : pressed s.params s.key (s.reg x) = .ok down := by
      rcases hdown with ⟨hk, rfl⟩ | ⟨hk, hpolicy, rfl⟩ | ⟨hk, hpolicy, rfl⟩
      · exact pressed_of_lt s.key hk
      · exact pressed_of_notPressed s.key hk hpolicy
      · exact pressed_of_mod16 s.key hk hpolicy
    exact exec_skip ((hexec x s).trans (skipOnKey_of_ok htest wanted)) beq_iff_eq.2 beq_eq_false_iff_ne.2
  · have hraise := skipOnKey_of_error (pressed_of_fault s.key hk hpolicy) wanted
    exact ⟨_, (hexec x s).trans hraise, haltWith_haltedBy s _⟩

/-- Settles O44: `Ex9E` and `ExA1` are one skip on the key test, with the key wanted down and up. -/
theorem skipsOnTheKeyTest : Obligations.SkipsOnTheKeyTest :=
  ⟨encodedAs_of_getElem? (n := 23) rfl, encodedAs_of_getElem? (n := 24) rfl, skipsOnKey_of_exec fun _ _ => rfl,
    skipsOnKey_of_exec fun _ _ => rfl⟩

/-! ### The wait for a released key (O45, O51) -/

section KeyRelease

variable {s : State} {k : Nat}

/-- What the search for a key asks of each is that it was released. -/
theorem keyp_and_not_key_iff_released : (s.keyp.getLsbD k && !s.key.getLsbD k) = true ↔ Released s k := by
  rw [Bool.and_eq_true, Bool.not_eq_true', Released]

theorem releasedKey_eq_none_iff : releasedKey s.keyp s.key = none ↔ ∀ k < 16, ¬ Released s k := by
  rw [releasedKey, List.find?_range_eq_none]
  exact forall₂_congr fun k _ => by rw [← keyp_and_not_key_iff_released, Bool.not_eq_true, Bool.not_eq_true']

/-- The search takes the lowest released key. -/
theorem releasedKey_eq_some_iff :
    releasedKey s.keyp s.key = some k ↔ Released s k ∧ k < 16 ∧ ∀ j < k, ¬ Released s j := by
  rw [releasedKey, List.find?_range_eq_some, keyp_and_not_key_iff_released, List.mem_range]
  refine and_congr_right' (and_congr_right' (forall₂_congr fun j _ => ?_))
  rw [← keyp_and_not_key_iff_released, Bool.not_eq_true, Bool.not_eq_true']

theorem exec_ldVxK_of_none (x : Reg) (h : releasedKey s.keyp s.key = none) : exec (.ldVxK x) s = .next s := by
  rw [exec, execLdVxK, h]

theorem exec_ldVxK_of_some (x : Reg) (h : releasedKey s.keyp s.key = some k) :
    exec (.ldVxK x) s = .next (s.setReg x (BitVec.ofNat 8 k)).advance := by
  rw [exec, execLdVxK, h]

end KeyRelease

/-- Settles O45: the search for a released key finds none and the step repeats, or it finds the lowest and `Vx` alone is
written. -/
theorem waitForAKeyRelease : Obligations.WaitForAKeyRelease := by
  refine ⟨encodedAs_of_getElem? (n := 26) rfl, fun x s => ⟨fun hnone => ?_, fun k hk hreleased hbelow => ?_⟩⟩
  · exact exec_ldVxK_of_none x (releasedKey_eq_none_iff.2 hnone)
  · have hfound := releasedKey_eq_some_iff.2 ⟨hreleased, hk, hbelow⟩
    have hbyte : (BitVec.ofNat 8 k).toNat = k := (BitVec.toNat_ofNat _ _).trans (Nat.mod_eq_of_lt (by omega))
    obtain ⟨t, hexec, hx, hframe⟩ := exec_setReg (exec_ldVxK_of_some x hfound)
    exact ⟨t, hexec, hx ▸ hbyte, hframe⟩

/-- After two edits a key is released exactly when the first latch had it down and the second has it up. -/
theorem released_keyEdit_keyEdit {s : State} {v w : Word} {k : Nat} :
    Released ((s.keyEdit v).keyEdit w) k ↔ v.getLsbD k = true ∧ w.getLsbD k = false := Iff.rfl

/-- Settles O51, from O45: two equal latches in a row release no key; a press followed by its release leaves the release
in the latches. -/
theorem latchEditsBetweenSteps : Obligations.LatchEditsBetweenSteps := by
  refine fun s x v w => ⟨?_, fun k hk hdown hup hbelow => ?_⟩
  · refine (waitForAKeyRelease.2 x _).1 fun k _ hreleased => ?_
    obtain ⟨hdown, hup⟩ := released_keyEdit_keyEdit.1 hreleased
    exact Bool.false_ne_true (hup.symm.trans hdown)
  · have hlowest : ∀ j < k, ¬ Released ((s.keyEdit v).keyEdit w) j := by
      intro j hj hreleased
      obtain ⟨hdown, hup⟩ := released_keyEdit_keyEdit.1 hreleased
      exact Bool.false_ne_true (hup.symm.trans (hbelow j hj hdown))
    obtain ⟨t, hexec, hx, _⟩ := (waitForAKeyRelease.2 x _).2 k hk (released_keyEdit_keyEdit.2 ⟨hdown, hup⟩) hlowest
    exact ⟨t, hexec, hx⟩

/-! ### The timers and the sound output (O46, O47) -/

theorem State.soundOn_iff (s : State) : s.soundOn = true ↔ 0 < s.st.toNat := decide_eq_true_iff

/-- Settles O46: each transfer writes its one target, and the sound output reads the `ST` that `Fx18` has written. -/
theorem timerTransfers : Obligations.TimerTransfers := by
  refine ⟨encodedAs_of_getElem? (n := 25) rfl, encodedAs_of_getElem? (n := 27) rfl, encodedAs_of_getElem? (n := 28) rfl,
    fun x s => ⟨exec_setReg rfl, ?_, ?_⟩⟩
  · exact ⟨_, rfl, rfl, rfl, (setDt_unchanged s _).advance⟩
  · exact ⟨_, rfl, rfl, State.soundOn_iff _, rfl, (setSt_unchanged s _).advance⟩

/-- The floor at 0 is the truncated subtraction of naturals (45_input_timers.md R230). -/
theorem toNat_countDown (b : Byte) : (countDown b).toNat = b.toNat - 1 := by
  unfold countDown
  split
  · next h => rw [h]; rfl
  · next h => bv_omega

theorem tick_unchanged (s : State) : UnchangedBut [.dt, .st] s s.tick :=
  fun f hf => by cases f <;> simp_all [AgreeOn]

/-- Settles O47: the tick counts each timer down alone, and a running block takes it. -/
theorem tickCountsTheTimersDown : Obligations.TickCountsTheTimersDown :=
  ⟨fun s => ⟨toNat_countDown s.dt, toNat_countDown s.st, tick_unchanged s⟩, fun _ => act_tick, State.soundOn_iff⟩

end Sys2Proof.Machine

/-! Proofs of the family `60_exceptions.md`: the state a fatal error leaves, and exactly when each of the three fatal
errors is raised. -/

namespace Sys2Proof.Machine

/-! ### The errors a step raises, and the halted state each leaves (O11) -/

/-- The step of a running block raises `e`: its fetch leaves memory, or the checks of the instruction it executes
raise `e` (60_exceptions.md R243 to R246). -/
def StepRaises (s : State) (e : Raised) : Prop :=
  (4096 ≤ s.pc.toNat + 1 ∧ e = ⟨.outOfBounds, max s.pc.toNat 4096⟩) ∨ ∃ i, Executes s i ∧ HaltCause i s e

/-- An error among an instruction's causes of a halt is the one it halts the block for. -/
theorem HaltCause.exec_eq {i : Instr} {s : State} {e : Raised} (h : HaltCause i s e) :
    exec i s = .next (s.haltWith e) := by
  rcases h with ⟨x, y, n, rfl, hc⟩ | ⟨x, rfl, hc⟩ | ⟨x, rfl, hc⟩ | ⟨x, rfl, hc⟩ | ⟨x, rfl | rfl, hc⟩
  · rw [exec, execDrw, hc, afterCheck_some]
  · rw [exec, execLdB, hc, afterCheck_some]
  · rw [exec, execStoreRegs, hc, afterCheck_some]
  · rw [exec, execLoadRegs, hc, afterCheck_some]
  · exact skipOnKey_of_error hc true
  · exact skipOnKey_of_error hc false

theorem StepRaises.step_eq {s : State} {e : Raised} (hs : s.halt = none) (h : StepRaises s e) :
    step s = .next (s.haltWith e) := by
  rcases h with ⟨hpc, rfl⟩ | ⟨i, ⟨w, hw, hd⟩, hcause⟩
  · exact step_outside hs hpc
  · rw [step_known hw hd, hcause.exec_eq]

theorem StepRaises.recordable {s : State} {e : Raised} (h : StepRaises s e) : e.Recordable := by
  rcases h with ⟨_, rfl⟩ | ⟨_, _, hcause⟩
  · exact .inl ⟨rfl, le_max_right _ _⟩
  · exact hcause.recordable

section Record

variable {s t : State} (hs : s.halt = none) (h : step s = .next t)
include hs h

/-- A step of a running block that leaves a record has raised an error, and ends in the halt for it. -/
theorem exists_stepRaises_of_halt {r : FaultRecord} (ht : t.halt = some r) :
    ∃ e, StepRaises s e ∧ t = s.haltWith e ∧ r = s.faultRecord e := by
  rcases step_halt_cases hs h with hrun | ⟨e, rfl, he⟩
  · rw [hrun] at ht
    cases ht
  · exact ⟨e, he, rfl, (Option.some.inj ht).symm⟩

/-- The record a step leaves is the one of an error it raises. -/
theorem step_halt_iff {r : FaultRecord} : t.halt = some r ↔ ∃ e, StepRaises s e ∧ r = s.faultRecord e := by
  constructor
  · intro ht
    obtain ⟨e, he, _, hr⟩ := exists_stepRaises_of_halt hs h ht
    exact ⟨e, he, hr⟩
  · rintro ⟨e, he, rfl⟩
    cases h.symm.trans (he.step_eq hs)
    exact State.haltWith_halt s e

theorem step_record_iff {k : ErrorKind} {a : Nat} :
    (∃ r, t.halt = some r ∧ r.kind = k ∧ r.addr = a) ↔ StepRaises s ⟨k, a⟩ := by
  simp only [step_halt_iff hs h]
  constructor
  · rintro ⟨r, ⟨e, he, rfl⟩, rfl, rfl⟩
    exact he
  · exact fun he => ⟨_, ⟨_, he, rfl⟩, rfl, rfl⟩

theorem step_recordKind_iff {k : ErrorKind} :
    (∃ r, t.halt = some r ∧ r.kind = k) ↔ ∃ a, StepRaises s ⟨k, a⟩ := by
  simp only [← step_record_iff hs h]
  exact ⟨fun ⟨r, hr, hk⟩ => ⟨_, r, hr, hk, rfl⟩, fun ⟨_, r, hr, hk, _⟩ => ⟨r, hr, hk⟩⟩

end Record

theorem Raised.Recordable.kind_cases {e : Raised} (h : e.Recordable) :
    e.kind = .outOfBounds ∨ e.kind = .protectedWrite ∨ e.kind = .keyIndex :=
  h.imp And.left (Or.imp And.left And.left)

/-- Settles O11: the step ends in the halt for an error of a fatal kind, which changes `HALT` alone, and a halted block
is frozen. -/
theorem fatalErrorsArePrecise : Obligations.FatalErrorsArePrecise := by
  intro s t r hs h ht
  obtain ⟨e, he, rfl, rfl⟩ := exists_stepRaises_of_halt hs h ht
  exact ⟨haltWith_unchanged s e, rfl, rfl, rfl, he.recordable.kind_cases, step_halted ht⟩

/-! ### When each check raises `OutOfBounds` (O12) -/

/-- The reads of a block raise only `OutOfBounds`, exactly when the last one is outside memory
(60_exceptions.md R243). -/
theorem checkReads_eq_some_iff {base len : Nat} {k : ErrorKind} {a : Nat} :
    checkReads base len = some ⟨k, a⟩ ↔
      k = .outOfBounds ∧ a = max base 4096 ∧ 0 < len ∧ 4096 ≤ base + len - 1 := by
  constructor
  · intro h
    rw [checkReads_eq] at h
    split at h
    case isTrue => cases h
    case isFalse hout =>
      cases h
      exact ⟨rfl, rfl, by omega, by omega⟩
  · rintro ⟨rfl, rfl, hpos, hout⟩
    exact checkReads_some hpos (by omega)

theorem writeErrorKind_eq_outOfBounds_iff {a : Nat} : writeErrorKind a = .outOfBounds ↔ 4096 ≤ a := by
  simp [writeErrorKind]

theorem writeErrorKind_eq_protectedWrite_iff {a : Nat} : writeErrorKind a = .protectedWrite ↔ a < 4096 := by
  simp [writeErrorKind]

/-- The writes of a block of at most 16 bytes raise `OutOfBounds` exactly when the last one is outside memory: such
a block has no byte below 512, so no write policy comes first (60_exceptions.md R243). -/
theorem checkWrites_eq_outOfBounds_iff {s : State} {base len a : Nat} (hlen : len ≤ 16) :
    checkWrites s.params base len = some ⟨.outOfBounds, a⟩ ↔
      a = max base 4096 ∧ 0 < len ∧ 4096 ≤ base + len - 1 := by
  constructor
  · intro h
    obtain ⟨k, hk, hbelow, _, he⟩ := checkWrites_some_cases h
    obtain ⟨hkind, rfl⟩ := Raised.mk.inj he
    have hout := writeErrorKind_eq_outOfBounds_iff.1 hkind.symm
    refine ⟨?_, by omega, by omega⟩
    cases k with
    | zero => omega
    | succ j =>
      obtain ⟨hin, _⟩ := hbelow j (Nat.lt_succ_self j)
      omega
  · rintro ⟨rfl, hpos, hout⟩
    have hfirst : base + (4096 - base) = max base 4096 := by omega
    have hbelow (j : Nat) (hj : j < 4096 - base) : Writable s (base + j) := by
      by_contra hbad
      have := lt_of_not_writable hbad (by omega)
      omega
    have hbad : ¬ Writable s (base + (4096 - base)) := fun hw => absurd hw.1 (by omega)
    rw [checkWrites_some (by omega) hbelow hbad, hfirst, writeErrorKind_eq_outOfBounds_iff.2 (le_max_right _ _)]

theorem pressed_eq_error_iff {p : Params} {key : Word} {b : Byte} {k : ErrorKind} {a : Nat} :
    pressed p key b = .error ⟨k, a⟩ ↔ k = .keyIndex ∧ a = b.toNat ∧ 16 ≤ b.toNat ∧ p.keyIndexPolicy = .fault := by
  constructor
  · intro h
    obtain ⟨he, hb, hpolicy⟩ := pressed_error h
    cases he
    exact ⟨rfl, rfl, hb, hpolicy⟩
  · rintro ⟨rfl, rfl, hb, hpolicy⟩
    exact pressed_of_fault key hb hpolicy

/-- Settles O12: the fetch and the five instructions with a check, each raising `OutOfBounds` when its check does. -/
theorem outOfBoundsRaisedExactlyWhen : Obligations.OutOfBoundsRaisedExactlyWhen := by
  intro s t hs h addr
  rw [step_record_iff hs h]
  constructor
  · rintro (⟨hpc, he⟩ | ⟨i, hi, ⟨x, y, n, rfl, hc⟩ | ⟨x, rfl, hc⟩ | ⟨x, rfl, hc⟩ | ⟨x, rfl, hc⟩ | ⟨x, _, hc⟩⟩)
    · cases he
      exact .inl ⟨by omega, rfl⟩
    · obtain ⟨_, ha, hpos, hout⟩ := checkReads_eq_some_iff.1 hc
      exact .inr ⟨ha, .inl ⟨x, y, n, hi, hpos, hout⟩⟩
    · obtain ⟨ha, _, hout⟩ := (checkWrites_eq_outOfBounds_iff (by decide)).1 hc
      exact .inr ⟨ha, .inr (.inl ⟨x, hi, hout⟩)⟩
    · obtain ⟨ha, _, hout⟩ := (checkWrites_eq_outOfBounds_iff x.isLt).1 hc
      exact .inr ⟨ha, .inr (.inr ⟨x, .inl hi, hout⟩)⟩
    · obtain ⟨_, ha, _, hout⟩ := checkReads_eq_some_iff.1 hc
      exact .inr ⟨ha, .inr (.inr ⟨x, .inr hi, hout⟩)⟩
    · obtain ⟨hkind, _⟩ := pressed_eq_error_iff.1 hc
      cases hkind
  · rintro (⟨hpc, rfl⟩ | ⟨ha, ⟨x, y, n, hi, hpos, hout⟩ | ⟨x, hi, hout⟩ | ⟨x, hi | hi, hout⟩⟩)
    · exact .inl ⟨by omega, rfl⟩
    · exact .inr ⟨_, hi, .inl ⟨x, y, n, rfl, checkReads_eq_some_iff.2 ⟨rfl, ha, hpos, hout⟩⟩⟩
    · have hc := (checkWrites_eq_outOfBounds_iff (s := s) (len := 3) (by decide)).2 ⟨ha, by decide, hout⟩
      exact .inr ⟨_, hi, .inr (.inl ⟨x, rfl, hc⟩)⟩
    · have hc := (checkWrites_eq_outOfBounds_iff (s := s) x.isLt).2 ⟨ha, Nat.succ_pos _, hout⟩
      exact .inr ⟨_, hi, .inr (.inr (.inl ⟨x, rfl, hc⟩))⟩
    · have hc := checkReads_eq_some_iff.2 ⟨rfl, ha, Nat.succ_pos x.val, hout⟩
      exact .inr ⟨_, hi, .inr (.inr (.inr (.inl ⟨x, rfl, hc⟩)))⟩

/-! ### When the checks of writes raise `ProtectedWrite` (O13) -/

/-- An address of memory is not writable exactly when the policy of its region is `fault` (20_memory.md R64). -/
theorem not_writable_iff {s : State} {a : Nat} (ha : a < 4096) :
    ¬ Writable s a ↔
      (a < 80 ∧ s.params.fontWritePolicy = .fault) ∨ (80 ≤ a ∧ a < 512 ∧ s.params.lowWritePolicy = .fault) := by
  simp only [Writable, ha, true_and, not_and_or, Classical.not_imp, not_not]

/-- The writes of a block raise `ProtectedWrite` exactly when one of its addresses is in a region under `fault`: no
address before it lies outside memory (60_exceptions.md R245). -/
theorem exists_checkWrites_eq_protectedWrite_iff {s : State} {base len : Nat} :
    (∃ a, checkWrites s.params base len = some ⟨.protectedWrite, a⟩) ↔
      ∃ a, base ≤ a ∧ a < base + len ∧
        ((a < 80 ∧ s.params.fontWritePolicy = .fault) ∨ (80 ≤ a ∧ a < 512 ∧ s.params.lowWritePolicy = .fault)) := by
  constructor
  · rintro ⟨a, h⟩
    obtain ⟨k, hk, _, hbad, he⟩ := checkWrites_some_cases h
    obtain ⟨hkind, rfl⟩ := Raised.mk.inj he
    have hin := writeErrorKind_eq_protectedWrite_iff.1 hkind.symm
    exact ⟨base + k, by omega, by omega, (not_writable_iff hin).1 hbad⟩
  · rintro ⟨a, hle, hlt, hprot⟩
    have hbad : ¬ Writable s (base + (a - base)) := by
      rw [Nat.add_sub_cancel' hle]
      exact (not_writable_iff (by omega)).2 hprot
    cases hc : checkWrites s.params base len with
    | none => exact absurd ((checkWrites_none_iff s base len).1 hc (a - base) (by omega)) hbad
    | some e =>
      obtain ⟨k, _, hbelow, _, rfl⟩ := checkWrites_some_cases hc
      have hfirst : k ≤ a - base := by
        by_contra hlater
        exact hbad (hbelow _ (by omega))
      exact ⟨base + k, by rw [writeErrorKind_eq_protectedWrite_iff.2 (by omega)]⟩

/-- Settles O13: of the instructions with a check, only `Fx33` and `Fx55` check writes. -/
theorem protectedWriteRaisedExactlyWhen : Obligations.ProtectedWriteRaisedExactlyWhen := by
  intro s t hs h
  rw [step_recordKind_iff hs h]
  constructor
  · rintro ⟨a, ⟨_, he⟩ | ⟨i, hi, ⟨x, y, n, _, hc⟩ | ⟨x, rfl, hc⟩ | ⟨x, rfl, hc⟩ | ⟨x, _, hc⟩ | ⟨x, _, hc⟩⟩⟩
    · cases he
    · cases (checkReads_eq_some_iff.1 hc).1
    · exact ⟨3, .inl ⟨x, hi, rfl⟩, exists_checkWrites_eq_protectedWrite_iff.1 ⟨a, hc⟩⟩
    · exact ⟨x.val + 1, .inr ⟨x, hi, rfl⟩, exists_checkWrites_eq_protectedWrite_iff.1 ⟨a, hc⟩⟩
    · cases (checkReads_eq_some_iff.1 hc).1
    · cases (pressed_eq_error_iff.1 hc).1
  · rintro ⟨len, hexec, hprot⟩
    obtain ⟨a, hc⟩ := exists_checkWrites_eq_protectedWrite_iff.2 hprot
    rcases hexec with ⟨x, hi, rfl⟩ | ⟨x, hi, rfl⟩
    · exact ⟨a, .inr ⟨_, hi, .inr (.inl ⟨x, rfl, hc⟩)⟩⟩
    · exact ⟨a, .inr ⟨_, hi, .inr (.inr (.inl ⟨x, rfl, hc⟩))⟩⟩

/-! ### When the key test raises `KeyIndex` (O14) -/

/-- The writes of a block never raise `KeyIndex`. -/
theorem checkWrites_ne_keyIndex {s : State} {base len a : Nat} :
    checkWrites s.params base len ≠ some ⟨.keyIndex, a⟩ := by
  intro h
  obtain ⟨k, _, _, _, he⟩ := checkWrites_some_cases h
  obtain ⟨hkind, _⟩ := Raised.mk.inj he
  unfold writeErrorKind at hkind
  split at hkind <;> cases hkind

/-- Settles O14: of the instructions with a check, only `Ex9E` and `ExA1` test a key. -/
theorem keyIndexRaisedExactlyWhen : Obligations.KeyIndexRaisedExactlyWhen := by
  intro s t hs h
  rw [step_recordKind_iff hs h]
  constructor
  · rintro ⟨a, ⟨_, he⟩ | ⟨i, hi, ⟨x, y, n, _, hc⟩ | ⟨x, _, hc⟩ | ⟨x, _, hc⟩ | ⟨x, _, hc⟩ | ⟨x, hskip, hc⟩⟩⟩
    · cases he
    · cases (checkReads_eq_some_iff.1 hc).1
    · exact absurd hc checkWrites_ne_keyIndex
    · exact absurd hc checkWrites_ne_keyIndex
    · cases (checkReads_eq_some_iff.1 hc).1
    · obtain ⟨_, _, hk, hpolicy⟩ := pressed_eq_error_iff.1 hc
      refine ⟨x, ?_, hk, hpolicy⟩
      rcases hskip with rfl | rfl
      · exact .inl hi
      · exact .inr hi
  · rintro ⟨x, hskip, hk, hpolicy⟩
    have hc := pressed_of_fault s.key hk hpolicy
    rcases hskip with hi | hi
    · exact ⟨_, .inr ⟨_, hi, .inr (.inr (.inr (.inr ⟨x, .inl rfl, hc⟩)))⟩⟩
    · exact ⟨_, .inr ⟨_, hi, .inr (.inr (.inr (.inr ⟨x, .inr rfl, hc⟩)))⟩⟩

end Sys2Proof.Machine
